-- ==== Sys2Proof/Word.lean ====
section
/-! DEFINITION. The bit-vector widths of the DXT1 block compressor (spec/00_scope.md R6, R7) and the
RGB888 colour triple (spec/00_scope.md R9, glossary). -/

namespace Sys2Proof

/-- A 32-bit register or command word (R6: "register width 32 bits"). -/
abbrev Word := BitVec 32

/-- An 8-bit channel or memory byte (R6: "channel width 8 bits"). -/
abbrev Byte := BitVec 8

/-- A 16-bit 565 endpoint (R6, R71). -/
abbrev Endpoint := BitVec 16

/-- A 2-bit palette index code (R6, R72). -/
abbrev IndexCode := BitVec 2

/-- A colour triple `(r, g, b)` of 8-bit channels (R9). It has no alpha. -/
structure Rgb where
  r : Byte
  g : Byte
  b : Byte
  deriving DecidableEq, Repr

end Sys2Proof
end

