-- ==== Sys2Proof/Config.lean ====
section
/-! DEFINITION. What the platform fixes and the spec leaves open (spec/00_scope.md R6,
spec/92_eei_decisions.md "Parameters left open"). Each is an opaque constant: nothing can be proved of its value.
LATENCY is not here: the state's schedule carries it (DESIGN CHOICE, log entry 4). N_CORES is outside the model of one core (DESIGN CHOICE, log entry 10). -/

namespace Sys2Proof

/-- `BASE / 256`, the platform's (R6, R51; DESIGN CHOICE, log entry 8). -/
opaque Config.baseIndex : Nat

/-- `BASE`, the host byte address of the core's register window: a multiple of 256 (R6, R51). -/
def Config.base : Nat := 256 * Config.baseIndex

/-- The width in bits of the host's addresses, the platform's (R170; DEDUCED, log entry 9). -/
opaque Config.hostAddrBits : Nat

end Sys2Proof
end

