-- ==== Sys2Proof/Syntax.lean ====
section
/-! DEFINITION. The command set: one constructor per row of spec/opcode_table.json. -/

namespace Sys2Proof

/-- A command the core can be given (spec/30_encoding.md R76). `cap` is CMD bit 3, the capability selector of R24: it is part of
the word and has no effect on any result. -/
inductive Instr
  /-- OP 0: the whole per-block pipeline (R150). -/
  | compress (cap : Bool)
  /-- OP 1: bounding box and inset (R114). -/
  | bbox (cap : Bool)
  /-- OP 2: quantize MAXC and MINC to 565 endpoints (R104). -/
  | quant (cap : Bool)
  /-- OP 3: re-expand the endpoints and interpolate the palette (R125). -/
  | palette (cap : Bool)
  /-- OP 4: SAD classification through the comparator network (R136). -/
  | classify (cap : Bool)
  /-- OP 5: pack endpoints and indices into the block (R143). -/
  | serialize (cap : Bool)
  /-- OP 6: reserved, rejected as ILLEGAL_CMD (R91, R152). -/
  | reservedOp6 (cap : Bool)
  /-- OP 7: reserved, rejected as ILLEGAL_CMD (R91, R152). -/
  | reservedOp7 (cap : Bool)
  deriving DecidableEq, Repr

end Sys2Proof
end

