-- ==== Sys2Proof/WellFormed.lean ====
section
/-! DEFINITION. The six legal operations (spec/30_encoding.md R76) and which instructions are legal (R79). -/

namespace Sys2Proof

/-- An operation of the core: what a legal command word selects and what PENDING holds (R26, R76). -/
inductive Op
  | compress
  | bbox
  | quant
  | palette
  | classify
  | serialize
  deriving DecidableEq, Repr

/-- The operation an instruction selects; a reserved OP code selects none (R78, R152). -/
def Instr.op? : Instr → Option Op
  | .compress _ => some .compress
  | .bbox _ => some .bbox
  | .quant _ => some .quant
  | .palette _ => some .palette
  | .classify _ => some .classify
  | .serialize _ => some .serialize
  | .reservedOp6 _ => none
  | .reservedOp7 _ => none

/-- The capability bit an instruction carries (R24, R75). -/
def Instr.cap : Instr → Bool
  | .compress c => c
  | .bbox c => c
  | .quant c => c
  | .palette c => c
  | .classify c => c
  | .serialize c => c
  | .reservedOp6 c => c
  | .reservedOp7 c => c

/-- The command of operation `op` with capability `cap`. -/
def Op.instr (cap : Bool) : Op → Instr
  | .compress => .compress cap
  | .bbox => .bbox cap
  | .quant => .quant cap
  | .palette => .palette cap
  | .classify => .classify cap
  | .serialize => .serialize cap

/-- A well-formed instruction is a legal one: OP is not a reserved code (R79). The fields of `Instr` admit no other fault: `cap` is
one bit and both its values are legal (R24). -/
def Instr.wellFormed (i : Instr) : Bool := i.op?.isSome

end Sys2Proof
end

