-- ==== Sys2Proof/Decode.lean ====
section
/-! DEFINITION. The command word: decoder and encoder (spec/30_encoding.md R75 to R80). -/

namespace Sys2Proof

/-- Why a word is no row of the opcode table. -/
inductive DecodeError
  /-- The RSVD field [31:4] is not 0 (R79). The core rejects the command as ILLEGAL_CMD (R91). -/
  | rsvdNonzero
  deriving DecidableEq, Repr

/-- CMD bits [2:0], OP (R75). -/
def opField (w : Word) : BitVec 3 := w.extractLsb' 0 3

/-- CMD bit [3], CAP (R75). -/
def capField (w : Word) : Bool := w.getLsbD 3

/-- CMD bits [31:4], RSVD (R75). -/
def rsvdField (w : Word) : BitVec 28 := w.extractLsb' 4 28

/-- The instruction of each OP code, with its capability bit (R76). -/
def instrOfFields (op : BitVec 3) (cap : Bool) : Instr :=
  match op.toNat with
  | 0 => .compress cap
  | 1 => .bbox cap
  | 2 => .quant cap
  | 3 => .palette cap
  | 4 => .classify cap
  | 5 => .serialize cap
  | 6 => .reservedOp6 cap
  | _ => .reservedOp7 cap

/-- Decode, total on all 2^32 command words (R78). A word of a reserved OP code gives the table's reserved row; a word with
RSVD nonzero gives no row. Both are Illegal in the sense of R78: see `decodeOp`. -/
def decode (w : Word) : Except DecodeError Instr :=
  if rsvdField w ≠ 0 then .error .rsvdNonzero
  else .ok (instrOfFields (opField w) (capField w))

/-- R78's own decode: the operation a command word selects, or `none` for Illegal. -/
def decodeOp (w : Word) : Option Op :=
  match decode w with
  | .error _ => none
  | .ok i => i.op?

/-- The OP code of each instruction (R76). -/
def opcodeOf : Instr → BitVec 3
  | .compress _ => 0
  | .bbox _ => 1
  | .quant _ => 2
  | .palette _ => 3
  | .classify _ => 4
  | .serialize _ => 5
  | .reservedOp6 _ => 6
  | .reservedOp7 _ => 7

/-- The command word of an instruction: RSVD = 0, CAP, OP (R75, R80). -/
def encode (i : Instr) : Word := 0#28 ++ BitVec.ofBool i.cap ++ opcodeOf i

/-- The instruction the decoder reads from a table word: bit 0 is the least significant bit of the one command word, and the
bits above `nbits` are 0. A command is exactly one 32-bit word (R75), so a longer row is none. -/
def decodeTableWord (nbits w : Nat) : Option Instr :=
  if 32 < nbits then none
  else
    match decode (BitVec.ofNat 32 (w % 2 ^ nbits)) with
    | .ok i => some i
    | .error _ => none

end Sys2Proof
end

