-- ==== Sys2Proof/Machine/State.lean ====
section
/-! DEFINITION. The state of one core (spec/10_state.md R20), of the host that drives it (spec/47_host_image.md) and of the
schedule that interleaves them, as plain data; the model's faults and refusals; the state right after reset. -/

namespace Sys2Proof.Machine

/-! ## Names -/

/-- The data registers of R20 items 3 and 4, in the order of the register map (R21). -/
inductive DataReg
  | pix (i : Fin 16)
  | rawmin
  | rawmax
  | delta
  | minc
  | maxc
  | ep
  | pal (k : Fin 4)
  | idxw
  | blkLo
  | blkHi
  deriving DecidableEq, Repr

/-- Every register of the map (R21). -/
inductive Reg
  | cmd
  | status
  | data (r : DataReg)
  deriving DecidableEq, Repr

/-- The kind of a bus access (R52). -/
inductive AccessKind
  | read
  | write
  deriving DecidableEq, Repr

/-! ## Faults and refusals -/

/-- The model fault Unwritten with the information it records (R180, R184). The step that raises it is a next state: it "writes nothing
and sets the model fault" (R93), and the state it leaves is terminal (R9, R10; log entries 2 and 3). -/
inductive Unwritten
  /-- A host read, at offset `off`, of a register whose valid bit is clear (R52): raised by `busRead`. -/
  | read (off : BitVec 8)
  /-- The perform step of `op`, whose first operand with a clear valid bit is `r` (R93): raised by `perform`. -/
  | operand (op : Op) (r : DataReg)
  deriving DecidableEq, Repr

/-- The model faults of the host's interface protocol (spec/60_exceptions.md R185, R186), each with the information it records (R180).
They are SAFE: the model stops where the spec defines no hardware behaviour ("Errs: toward unprovable"). -/
inductive Fault
  /-- HostProtocol: a host access other than a STATUS read while BUSY = 1 (R185): raised by `checkAccess`. Safe. -/
  | hostProtocol (off : BitVec 8) (kind : AccessKind)
  /-- BusError: an access that is not 32 bits wide, not 4-byte aligned, or to an unmapped offset (R186): raised by
  `checkAccess`. Safe. -/
  | busError (off : BitVec 8) (size : Nat)
  deriving DecidableEq, Repr

/-- What the model does not accept. -/
inductive Refusal
  /-- An instruction without a meaning, rejected by name in `exec`'s arm. No arm uses it. Safe. -/
  | notModelled (mnemonic : String)
  /-- A `compress` call whose buffers the host's address width cannot hold: `need` is the first address that does not fit
  (R170: "a model refuses such a call"): raised by `startCall`. Safe. -/
  | hostAddressWidth (need : Nat)
  deriving DecidableEq, Repr

/-! ## The host -/

/-- The arguments of one host call `compress(pixels, width, height, capability)` (R160): the pixel buffer's address `P` and
length, the image's size, the output buffer's address `Q`, the capability. -/
structure Call where
  src : Nat
  len : Nat
  width : BitVec 32
  height : BitVec 32
  dst : Nat
  cap : Bool
  deriving DecidableEq, Repr

/-- What a `compress` call returns (R160, R169). -/
inductive CallResult
  /-- Success: the CompressedImage buffer's address and length (R166). -/
  | image (dst len : Nat)
  /-- InvalidDimensions(width, height) (R161, R182). -/
  | invalidDimensions (width height : Nat)
  /-- OutOfBounds(len, width*height*4), from the buffer check (R162, R183). -/
  | bufferTooShort (len need : Nat)
  /-- OutOfBounds(addr), from an extraction past the buffer (R164, R183). -/
  | extractPastEnd (addr : Nat)
  deriving DecidableEq, Repr

/-- One thing the host does next (R81, R165). Offsets are bytes from BASE, within the 256-byte window (R51); a temporary is named by
a number. -/
inductive HostOp
  /-- `BusWrite(off, v)` with an access of `size` bytes (R52); `wr NAME, v` has `size = 4`. That the `value` of R81's `wr` is a 32-bit
  word fixed in the program, or a temporary (`wrTemp`), and nothing else, is the model's choice (DESIGN CHOICE, log entry 27). -/
  | wr (off : BitVec 8) (size : Nat) (v : Word)
  /-- `BusWrite(off, t)` with an access of `size` bytes (R52): `wr NAME, t` of a temporary's value at that moment (DESIGN CHOICE, log
  entry 27). -/
  | wrTemp (off : BitVec 8) (size : Nat) (t : Nat)
  /-- `t <- BusRead(off)` with an access of `size` bytes (R52); `rd NAME -> t` has `size = 4`. -/
  | rd (off : BitVec 8) (size : Nat) (t : Nat)
  /-- `poll`: `rd STATUS -> t` repeated until `t[0] == 0` (R81). -/
  | poll (t : Nat)
  /-- `MemWrite(addr, 4, t)` of a temporary (R9, R165). -/
  | memWrite (addr : Nat) (t : Nat)
  /-- The call `compress` (R160). -/
  | compress (c : Call)
  /-- `compress_one(bx, by)` of a call, on its own: a host may visit blocks in any order (R163, R165, R168). No check of the call comes
  before it (R161, R162, R170; DESIGN CHOICE, log entry 28). -/
  | block (c : Call) (bx byRow : Nat)
  /-- The walk of a call that passed its checks, with block number `k` next (R163). -/
  | walk (c : Call) (k : Nat)
  deriving DecidableEq, Repr

/-- Who takes a step (R61, R200, R202). -/
inductive Agent
  | host
  | core
  | reset
  deriving DecidableEq, Repr

/-! ## The state -/

/-- A data register: its 32 stored bits and its valid bit (R20 item 5, R23). With the valid bit clear the register "holds no value", which
"stands for an unspecified hardware value" (R35): the stored bits are that value (DESIGN CHOICE, log entry 1), and a use of it is the
model fault Unwritten (R23). -/
structure DataCell where
  val : Word
  valid : Bool
  deriving DecidableEq, Repr

/-- Sparse storage in canonical form: keys strictly rising, no value 0. An unlisted key reads as 0. -/
abbrev Sparse (n : Nat) := List (Nat × BitVec n)

/-- Host memory: a list of `Host.Cell` (R50 item 2). An unlisted byte reads as 0x00 (DESIGN CHOICE, log entry 6). -/
abbrev Memory := List Host.Cell

/-- The state: items 1 to 7 of R20, then the host's memory and temporaries, its program and last call result, and the schedule. -/
structure State where
  /-- CMD (R24). -/
  cmd : Word
  /-- STATUS (R25), the register word. -/
  status : Word
  /-- PIX0..PIX15, RAWMIN, RAWMAX, DELTA, MINC, MAXC, EP, PAL0..PAL3, IDXW, BLK_LO, BLK_HI with their valid bits (R20 items 3
  to 5), in the order of the register map: entry `n` is the register at offset `0x10 + 4*n`. -/
  regs : Vector DataCell 29
  /-- PENDING (R26). -/
  pending : Option Op
  /-- FAULT (R27), where it records BusError or HostProtocol. -/
  fault : Option Fault
  /-- FAULT (R27), where it records Unwritten. `State.firstFault` is the whole mark. -/
  unwritten : Option Unwritten
  /-- Host memory (R50 item 2, R55, R56). -/
  mem : Memory
  /-- The host's temporaries, by number (R81). -/
  temps : Sparse 32
  /-- The host's program: what it does, in order (R29: "The host's sequence of bus accesses … is the program"). -/
  prog : List HostOp
  /-- The value the last `compress` call returned; none before the first and while one runs (R160). -/
  result : Option CallResult
  /-- The model's own field: which agent takes each of the next steps (DESIGN CHOICE, log entry
  4). Past its end, the core performs a pending
  command and else the host goes on. -/
  schedule : List Agent
  deriving DecidableEq, Repr

/-- The state after reset (R35, R200): CMD and STATUS 0, every valid bit clear, PENDING none, FAULT none as at power-on. The unspecified
value of a data register is 0 (DESIGN CHOICE, log entry 1); host memory and temporaries list nothing (DESIGN CHOICE, log entries 6, 7); no
program is loaded (DESIGN CHOICE, log entry 5); the schedule is empty (DESIGN CHOICE, log entry 4). -/
def State.reset : State where
  cmd := 0x00000000
  status := 0x00000000
  regs := Vector.replicate 29 { val := 0, valid := false }
  pending := none
  fault := none
  unwritten := none
  mem := []
  temps := []
  prog := []
  result := none
  schedule := []

/-- The outcome type of every meaning. -/
abbrev Outcome := Host.Outcome State Fault Refusal

end Sys2Proof.Machine
end

