-- ==== Sys2Proof/Machine/Memory.lean ====
section
/-! DEFINITION. Sparse storage in canonical form, for host memory and the host's temporaries, and the host's byte and word accesses
(spec/00_scope.md R9, spec/20_memory.md R50). -/

namespace Sys2Proof.Machine

/-- The value under a key; an unlisted key reads as 0 (DESIGN CHOICE, log entries 6, 7). -/
def sparseGet {n : Nat} : Sparse n → Nat → BitVec n
  | [], _ => 0#n
  | (k, v) :: rest, a => if k = a then v else sparseGet rest a

/-- Set the value under a key, keeping the canonical form: storing 0 removes the entry. -/
def sparseSet {n : Nat} : Sparse n → Nat → BitVec n → Sparse n
  | [], a, x => if x = 0#n then [] else [(a, x)]
  | (k, v) :: rest, a, x =>
    if a < k then (if x = 0#n then (k, v) :: rest else (a, x) :: (k, v) :: rest)
    else if a = k then (if x = 0#n then rest else (a, x) :: rest)
    else (k, v) :: sparseSet rest a x

/-- The canonical form above a bound: keys at least `lo` and strictly rising, no value 0. -/
def sparseWfFrom {n : Nat} : Nat → Sparse n → Bool
  | _, [] => true
  | lo, (k, v) :: rest => decide (lo ≤ k) && decide (v ≠ 0#n) && sparseWfFrom (k + 1) rest

/-- The canonical form. -/
def sparseWf {n : Nat} (l : Sparse n) : Bool := sparseWfFrom 0 l

/-- Host memory is in canonical form. -/
def Memory.wf (m : Memory) : Bool := sparseWf m

/-- `MemRead(addr, 1)` (R9). -/
def readByte (m : Memory) (a : Nat) : Byte := sparseGet m a

/-- `MemWrite(addr, 1, v)` (R9). -/
def writeByte (m : Memory) (a : Nat) (v : Byte) : Memory := sparseSet m a v

/-- `MemRead(addr, 4)`: little-endian (R9). -/
def readWord (m : Memory) (a : Nat) : Word :=
  readByte m (a + 3) ++ readByte m (a + 2) ++ readByte m (a + 1) ++ readByte m a

/-- Byte `k` of a word, `k` in 0..3, counted from the least significant (R9, R53). -/
def byteOf (w : Word) (k : Nat) : Byte := w.extractLsb' (8 * k) 8

/-- `MemWrite(addr, 4, v)`: least significant byte at `addr` (R9). -/
def writeWord (m : Memory) (a : Nat) (w : Word) : Memory :=
  writeByte (writeByte (writeByte (writeByte m a (byteOf w 0)) (a + 1) (byteOf w 1)) (a + 2) (byteOf w 2)) (a + 3) (byteOf w 3)

end Sys2Proof.Machine
end

