-- ==== Sys2Proof/Machine/Flags.lean ====
section
/-! DEFINITION. The STATUS word: its fields and the values the core writes (spec/10_state.md R25, R31). The core has no other flag. -/

namespace Sys2Proof.Machine

/-- STATUS built from its fields: BUSY [0], DONE [1], ERR [2], reserved 0 [3], ERRCODE [7:4], reserved 0 [31:8] (R25). -/
def statusWord (busy done err : Bool) (code : BitVec 4) : Word :=
  0#24 ++ code ++ 0#1 ++ BitVec.ofBool err ++ BitVec.ofBool done ++ BitVec.ofBool busy

/-- ERRCODE NONE (R25). -/
def errNone : BitVec 4 := 0

/-- ERRCODE ILLEGAL_CMD (R25, R180). -/
def errIllegalCmd : BitVec 4 := 1

/-- STATUS after reset (R35). -/
def statusReset : Word := statusWord false false false errNone

/-- STATUS from a legal issue until completion (R90). -/
def statusBusy : Word := statusWord true false false errNone

/-- STATUS after completion (R92). -/
def statusDone : Word := statusWord false true false errNone

/-- STATUS after a rejected command (R91). -/
def statusIllegal : Word := statusWord false true true errIllegalCmd

/-- STATUS.BUSY. -/
def busyBit (w : Word) : Bool := w.getLsbD 0

/-- STATUS.DONE. -/
def doneBit (w : Word) : Bool := w.getLsbD 1

/-- STATUS.ERR. -/
def errBit (w : Word) : Bool := w.getLsbD 2

/-- STATUS.ERRCODE. -/
def errCode (w : Word) : BitVec 4 := w.extractLsb' 4 4

/-- What a read of STATUS returns: reserved bits [3] and [31:8] read 0 (R25, R32). -/
def statusRead (w : Word) : Word := w &&& 0x000000F7

end Sys2Proof.Machine
end

