-- ==== Sys2Proof/Machine/Operands.lean ====
section
/-! DEFINITION. The register map and the register layouts (spec/10_state.md R21, R22), and the read and write set of each operation
(R28). -/

namespace Sys2Proof.Machine

/-! ## Layouts (R22) -/

/-- The colour of a pixel word or RGB888 word: R [7:0], G [15:8], B [23:16]. Bits [31:24] are not read (R111, R131). -/
def rgbOfWord (w : Word) : Rgb where
  r := w.extractLsb' 0 8
  g := w.extractLsb' 8 8
  b := w.extractLsb' 16 8

/-- `zext_32({b, g, r})`: an RGB888 word (R22, R114). -/
def rgbWord (c : Rgb) : Word := 0#8 ++ c.b ++ c.g ++ c.r

/-- EP0, the max-corner endpoint: EP [15:0]. -/
def ep0Of (w : Word) : Endpoint := w.extractLsb' 0 16

/-- EP1, the min-corner endpoint: EP [31:16]. -/
def ep1Of (w : Word) : Endpoint := w.extractLsb' 16 16

/-- The endpoint word `{EP1, EP0}`. -/
def epWord (ep0 ep1 : Endpoint) : Word := ep1 ++ ep0

/-- The registers with the RGB888 layout. -/
def DataReg.isRgb : DataReg → Bool
  | .pix _ => false
  | .rawmin => true
  | .rawmax => true
  | .delta => true
  | .minc => true
  | .maxc => true
  | .ep => false
  | .pal _ => true
  | .idxw => false
  | .blkLo => false
  | .blkHi => false

/-- The 32 bits a register keeps and returns: an RGB888 register has no bits [31:24], which are discarded on a write and read 0;
every other register has all 32 (R22, R32). -/
def DataReg.stored (r : DataReg) (w : Word) : Word := if r.isRgb then w &&& 0x00FFFFFF else w

/-! ## The register map (R21) -/

/-- A data register's place among the 29 data registers of the map. -/
def DataReg.slot : DataReg → Fin 29
  | .pix i => ⟨i.val, by omega⟩
  | .rawmin => 16
  | .rawmax => 17
  | .delta => 18
  | .minc => 19
  | .maxc => 20
  | .ep => 21
  | .pal k => ⟨22 + k.val, by omega⟩
  | .idxw => 26
  | .blkLo => 27
  | .blkHi => 28

/-- A register's byte offset from BASE. -/
def Reg.offset : Reg → BitVec 8
  | .cmd => 0x00
  | .status => 0x04
  | .data (.pix i) => BitVec.ofNat 8 (0x10 + 4 * i.val)
  | .data .rawmin => 0x50
  | .data .rawmax => 0x54
  | .data .delta => 0x58
  | .data .minc => 0x5C
  | .data .maxc => 0x60
  | .data .ep => 0x64
  | .data (.pal k) => BitVec.ofNat 8 (0x68 + 4 * k.val)
  | .data .idxw => 0x78
  | .data .blkLo => 0x7C
  | .data .blkHi => 0x80

/-- The registers a host write does not change (R21 "read-only", R33). -/
def Reg.readOnly : Reg → Bool
  | .cmd => false
  | .status => true
  | .data (.pix _) => false
  | .data .rawmin => true
  | .data .rawmax => true
  | .data .delta => true
  | .data .minc => false
  | .data .maxc => false
  | .data .ep => false
  | .data (.pal _) => false
  | .data .idxw => false
  | .data .blkLo => true
  | .data .blkHi => true

/-- PIX0..PIX15 in order. -/
def pixRegs : List DataReg := (List.finRange 16).map .pix

/-- PAL0..PAL3 in order. -/
def palRegs : List DataReg := (List.finRange 4).map .pal

/-- Every data register in the order of the map. -/
def dataRegs : List DataReg :=
  pixRegs ++ [.rawmin, .rawmax, .delta, .minc, .maxc, .ep] ++ palRegs ++ [.idxw, .blkLo, .blkHi]

/-- Every register in the order of the map. -/
def allRegs : List Reg := [.cmd, .status] ++ dataRegs.map .data

/-- The register at an offset of the window; none where the offset is unmapped (R51) or not a register's first byte. -/
def regAt (off : BitVec 8) : Option Reg := allRegs.find? (fun r => r.offset == off)

/-! ## Read and write sets (R28) -/

/-- The registers an operation reads, in the table's order. -/
def opReads : Op → List DataReg
  | .compress => pixRegs
  | .bbox => pixRegs
  | .quant => [.minc, .maxc]
  | .palette => [.ep]
  | .classify => pixRegs ++ palRegs
  | .serialize => [.ep, .idxw]

/-- The registers an operation writes, in the table's order. -/
def opWrites : Op → List DataReg
  | .compress => [.rawmin, .rawmax, .delta, .minc, .maxc, .ep] ++ palRegs ++ [.idxw, .blkLo, .blkHi]
  | .bbox => [.rawmin, .rawmax, .delta, .minc, .maxc]
  | .quant => [.ep]
  | .palette => palRegs
  | .classify => [.idxw]
  | .serialize => [.blkLo, .blkHi]

end Sys2Proof.Machine
end

