-- ==== Sys2Proof/Machine/Ops.lean ====
section
/-! DEFINITION. The named operations over the state: register reads and writes, the phases of a command (issue, reject, perform:
spec/40_command.md R90 to R93), the fault mark (spec/10_state.md R27), the reset event (spec/70_reset_and_hazards.md R200). The core
has no trap entry and no trap return (spec/60_exceptions.md R188, R189): what it does with an error is `reject`, and nothing returns from it. -/

namespace Sys2Proof.Machine

/-! ## Registers -/

/-- The cell of a data register. -/
def State.cell (s : State) (r : DataReg) : DataCell := s.regs.get r.slot

/-- The value a data register returns (R22): the stored bits, reserved bits as 0. -/
def State.value (s : State) (r : DataReg) : Word := r.stored (s.cell r).val

/-- The register holds a value (R23). -/
def State.holds (s : State) (r : DataReg) : Bool := (s.cell r).valid

/-- Write a data register and set its valid bit (R22, R23). -/
def State.put (s : State) (r : DataReg) (w : Word) : State :=
  { s with regs := s.regs.set r.slot.val { val := r.stored w, valid := true } r.slot.isLt }

/-- Write registers in order. -/
def State.putAll (s : State) (ws : List (DataReg × Word)) : State := ws.foldl (fun t w => t.put w.1 w.2) s

/-- The 16 pixels of the block, without alpha (R22, R111). -/
def State.pixels (s : State) : List Rgb := pixRegs.map (fun r => rgbOfWord (s.value r))

/-- The core is busy (R25). -/
def State.busy (s : State) : Bool := busyBit s.status

/-! ## A command's phases -/

/-- Store the command word (R24, R90). -/
def State.storeCmd (s : State) (w : Word) : State := { s with cmd := w }

/-- A legal issue: PENDING and BUSY, nothing else (R90). -/
def State.latch (s : State) (op : Op) : State := { s with pending := some op, status := statusBusy }

/-- The rejection of an illegal command: ILLEGAL_CMD in STATUS, nothing pending, no data register changed (R91, R181). -/
def State.reject (s : State) : State := { s with pending := none, status := statusIllegal }

/-- Completion: nothing pending, DONE (R92). -/
def State.complete (s : State) : State := { s with pending := none, status := statusDone }

/-! ## The fault mark (R27) -/

/-- FAULT: the first model fault raised (R27). -/
def State.firstFault (s : State) : Option (Unwritten ⊕ Fault) :=
  match s.unwritten with
  | some u => some (.inl u)
  | none => s.fault.map .inr

/-- Set the mark to BusError or HostProtocol, if none such stands (R27). -/
def State.recordFault (s : State) (f : Fault) : State :=
  match s.fault with
  | some _ => s
  | none => { s with fault := some f }

/-- Set the mark to Unwritten, if it is the first model fault raised (R27). -/
def State.note (s : State) (u : Unwritten) : State :=
  match s.firstFault with
  | some _ => s
  | none => { s with unwritten := some u }

/-- `fault <Fault>(info)` (R9): Unwritten is a next state in which only FAULT is set (R93); BusError and HostProtocol are the outcome of
the access itself, recorded by the step (log entry 3). -/
def raiseFault (m : Unwritten ⊕ Fault) (s : State) : Outcome :=
  match m with
  | .inl u => .next (s.note u)
  | .inr f => .fault f

/-- The first register of a list that holds no value (R93). -/
def State.firstMissing (s : State) (rs : List DataReg) : Option DataReg := rs.find? (fun r => !s.holds r)

/-- The perform step (R92 to R94): Unwritten at the first operand without a value, with nothing written and FAULT set; else write every
result and complete, all in one step. -/
def perform (op : Op) (results : State → List (DataReg × Word)) (s : State) : Outcome :=
  match s.firstMissing (opReads op) with
  | some r => raiseFault (.inl (.operand op r)) s
  | none => .next (s.putAll (results s)).complete

/-! ## Reset -/

/-- The reset event (R200): CMD and STATUS 0, a pending command abandoned, every valid bit cleared, FAULT unchanged. Each data register
has its unspecified value after reset, the same at every reset (R35; DESIGN CHOICE, log entry 1). The host's own state is not the core's
and is unchanged (DEDUCED, log entry 11). -/
def State.resetCore (s : State) : State :=
  { s with
    cmd := 0x00000000
    status := statusReset
    pending := none
    regs := State.reset.regs }

/-! ## The host's storage -/

/-- A host temporary's value. -/
def State.temp (s : State) (t : Nat) : Word := sparseGet s.temps t

/-- Set a host temporary. -/
def State.setTemp (s : State) (t : Nat) (v : Word) : State := { s with temps := sparseSet s.temps t v }

/-- Replace host memory. -/
def State.setMem (s : State) (m : Memory) : State := { s with mem := m }

/-- Put operations before the rest of the host's program. -/
def State.pushProg (s : State) (ops : List HostOp) : State := { s with prog := ops ++ s.prog }

/-- Replace the host's program. -/
def State.setProg (s : State) (ops : List HostOp) : State := { s with prog := ops }

/-- Set the last call's result. -/
def State.setResult (s : State) (r : Option CallResult) : State := { s with result := r }

/-- Replace the schedule. -/
def State.setSchedule (s : State) (a : List Agent) : State := { s with schedule := a }

end Sys2Proof.Machine
end

