-- ==== Sys2Proof/Machine/Inset.lean ====
section
/-! DEFINITION. The bounding-box inset engine (spec/42_inset.md): bounding box, inset and BBOX. -/

namespace Sys2Proof.Machine

/-- The minimum of one channel over the pixels (R110), on naturals. -/
def chanMin (ch : Rgb → Byte) (ps : List Rgb) : Nat := ps.foldl (fun m p => min m (ch p).toNat) 255

/-- The maximum of one channel over the pixels (R110), on naturals. -/
def chanMax (ch : Rgb → Byte) (ps : List Rgb) : Nat := ps.foldl (fun m p => max m (ch p).toNat) 0

/-- A triple from three natural channel values, each below 256. -/
def rgbOfNats (r g b : Nat) : Rgb := ⟨BitVec.ofNat 8 r, BitVec.ofNat 8 g, BitVec.ofNat 8 b⟩

/-- `rawmin` (R110). -/
def rawMin (ps : List Rgb) : Rgb := rgbOfNats (chanMin (·.r) ps) (chanMin (·.g) ps) (chanMin (·.b) ps)

/-- `rawmax` (R110). -/
def rawMax (ps : List Rgb) : Rgb := rgbOfNats (chanMax (·.r) ps) (chanMax (·.g) ps) (chanMax (·.b) ps)

/-- The same expression applied to each channel of two triples (R9 "per channel"), computed on naturals and narrowed to 8 bits. -/
def perChannel (f : Nat → Nat → Nat) (a b : Rgb) : Rgb :=
  rgbOfNats (f a.r.toNat b.r.toNat) (f a.g.toNat b.g.toNat) (f a.b.toNat b.b.toNat)

/-- `delta = (rawmax - rawmin) >> 4` (R112). -/
def insetDelta (rawmin rawmax : Rgb) : Rgb := perChannel (fun lo hi => (hi - lo) >>> 4) rawmin rawmax

/-- `minc = rawmin + delta` (R112). -/
def insetMin (rawmin rawmax : Rgb) : Rgb := perChannel (· + ·) rawmin (insetDelta rawmin rawmax)

/-- `maxc = rawmax - delta` (R112). No clamp: none is reachable (R113). -/
def insetMax (rawmin rawmax : Rgb) : Rgb := perChannel (· - ·) rawmax (insetDelta rawmin rawmax)

/-- What BBOX writes, from the pixels (R114). -/
def bboxWords (ps : List Rgb) : List (DataReg × Word) :=
  [(.rawmin, rgbWord (rawMin ps)),
   (.rawmax, rgbWord (rawMax ps)),
   (.delta, rgbWord (insetDelta (rawMin ps) (rawMax ps))),
   (.minc, rgbWord (insetMin (rawMin ps) (rawMax ps))),
   (.maxc, rgbWord (insetMax (rawMin ps) (rawMax ps)))]

/-- What BBOX writes (R114). -/
def bboxResults (s : State) : List (DataReg × Word) := bboxWords s.pixels

/-- BBOX (R114). -/
def execBbox (_cap : Bool) (s : State) : Outcome := perform .bbox bboxResults s

end Sys2Proof.Machine
end

