-- ==== Sys2Proof/Machine/Quantizer.lean ====
section
/-! DEFINITION. The colorspace quantizer (spec/41_quantizer.md): pack565, unpack565 and QUANT. -/

namespace Sys2Proof.Machine

/-- `pack565` (R100): the DOC's shifts on naturals; the result fits 16 bits (R102). -/
def pack565 (c : Rgb) : Endpoint :=
  BitVec.ofNat 16 (((c.r.toNat >>> 3) <<< 11) ||| ((c.g.toNat >>> 2) <<< 5) ||| (c.b.toNat >>> 3))

/-- An endpoint's 5-bit red field [15:11] (R71). -/
def r5Of (p : Endpoint) : BitVec 5 := p.extractLsb' 11 5

/-- An endpoint's 6-bit green field [10:5] (R71). -/
def g6Of (p : Endpoint) : BitVec 6 := p.extractLsb' 5 6

/-- An endpoint's 5-bit blue field [4:0] (R71). -/
def b5Of (p : Endpoint) : BitVec 5 := p.extractLsb' 0 5

/-- `unpack565` (R101): bit replication. -/
def unpack565 (p : Endpoint) : Rgb where
  r := BitVec.ofNat 8 (((r5Of p).toNat <<< 3) ||| ((r5Of p).toNat >>> 2))
  g := BitVec.ofNat 8 (((g6Of p).toNat <<< 2) ||| ((g6Of p).toNat >>> 4))
  b := BitVec.ofNat 8 (((b5Of p).toNat <<< 3) ||| ((b5Of p).toNat >>> 2))

/-- The endpoint word of the two corners: EP0 from the max corner, EP1 from the min corner (R104). -/
def quantize (maxc minc : Rgb) : Word := epWord (pack565 maxc) (pack565 minc)

/-- What QUANT writes (R104). -/
def quantResults (s : State) : List (DataReg × Word) :=
  [(.ep, quantize (rgbOfWord (s.value .maxc)) (rgbOfWord (s.value .minc)))]

/-- QUANT (R104). -/
def execQuant (_cap : Bool) (s : State) : Outcome := perform .quant quantResults s

end Sys2Proof.Machine
end

