-- ==== Sys2Proof/Machine/Palette.lean ====
section
/-! DEFINITION. The palette interpolator (spec/43_palette.md): the fixed-point division by 3 and PALETTE. -/

namespace Sys2Proof.Machine

/-- `K = (1 << 16) / 3 + 1` (R121). -/
def reciprocalK : Nat := (1 <<< 16) / 3 + 1

/-- `reciprocal_mul3` of a 16-bit value: the high half of the exact product, saturated to 8 bits (R121). -/
def reciprocalMul3 (x : BitVec 16) : Byte := BitVec.ofNat 8 (min ((x.toNat * reciprocalK) >>> 16) 255)

/-- One channel `reciprocal_mul3(2*a + b)` (R124). The sum is at most 765 (R122). -/
def twoThirds (a b : Byte) : Byte := reciprocalMul3 (BitVec.ofNat 16 (2 * a.toNat + b.toNat))

/-- `color2` from `color0` and `color1`, and `color3` with the two exchanged (R124). -/
def interpolate (near far : Rgb) : Rgb := ⟨twoThirds near.r far.r, twoThirds near.g far.g, twoThirds near.b far.b⟩

/-- A palette: color0 to color3. -/
structure Palette where
  c0 : Rgb
  c1 : Rgb
  c2 : Rgb
  c3 : Rgb
  deriving DecidableEq, Repr

/-- The palette of two endpoints (R120, R124). -/
def paletteOf (ep0 ep1 : Endpoint) : Palette where
  c0 := unpack565 ep0
  c1 := unpack565 ep1
  c2 := interpolate (unpack565 ep0) (unpack565 ep1)
  c3 := interpolate (unpack565 ep1) (unpack565 ep0)

/-- The four palette registers' words (R125). -/
def paletteWords (p : Palette) : List (DataReg × Word) :=
  [(.pal 0, rgbWord p.c0), (.pal 1, rgbWord p.c1), (.pal 2, rgbWord p.c2), (.pal 3, rgbWord p.c3)]

/-- What PALETTE writes (R125). -/
def paletteResults (s : State) : List (DataReg × Word) :=
  paletteWords (paletteOf (ep0Of (s.value .ep)) (ep1Of (s.value .ep)))

/-- PALETTE (R125). -/
def execPalette (_cap : Bool) (s : State) : Outcome := perform .palette paletteResults s

end Sys2Proof.Machine
end

