-- ==== Sys2Proof/Machine/Classifier.lean ====
section
/-! DEFINITION. The SAD classifier and its tie-break comparator network (spec/44_classifier.md), and CLASSIFY. -/

namespace Sys2Proof.Machine

/-- `abs(a - b)` of two channels, on naturals (R8). -/
def absDiff (a b : Byte) : Nat := max a.toNat b.toNat - min a.toNat b.toNat

/-- The SAD distance of a pixel to a palette entry (R130). -/
def sad (p c : Rgb) : Nat := absDiff p.r c.r + absDiff p.g c.g + absDiff p.b c.b

/-- The comparator network and the index bits: `{ x0 | x1, x2 }` (R132, R133; DEDUCED, log entry 17). -/
def network (d0 d1 d2 d3 : Nat) : IndexCode :=
  let b0 := decide (d0 > d3)
  let b1 := decide (d1 > d2)
  let b2 := decide (d0 > d2)
  let b3 := decide (d1 > d3)
  let b4 := decide (d2 > d3)
  let x0 := b1 && b2
  let x1 := b0 && b3
  let x2 := b0 && b4
  BitVec.ofBool (x0 || x1) ++ BitVec.ofBool x2

/-- The index of one pixel: one lane of the classifier (R136, R137). -/
def indexOf (pal : Palette) (p : Rgb) : IndexCode := network (sad p pal.c0) (sad p pal.c1) (sad p pal.c2) (sad p pal.c3)

/-- `sum over i of index_i << (2i)` (R73). -/
def indexSum : List IndexCode → Nat
  | [] => 0
  | c :: cs => c.toNat + (indexSum cs <<< 2)

/-- The packed index word of the 16 codes (R73). -/
def packIndices (cs : List IndexCode) : Word := BitVec.ofNat 32 (indexSum cs)

/-- The index word of a block under a palette (R136). -/
def classifyWord (pal : Palette) (ps : List Rgb) : Word := packIndices (ps.map (indexOf pal))

/-- The palette in PAL0..PAL3 (R136). -/
def State.hostPalette (s : State) : Palette where
  c0 := rgbOfWord (s.value (.pal 0))
  c1 := rgbOfWord (s.value (.pal 1))
  c2 := rgbOfWord (s.value (.pal 2))
  c3 := rgbOfWord (s.value (.pal 3))

/-- What CLASSIFY writes (R136). -/
def classifyResults (s : State) : List (DataReg × Word) := [(.idxw, classifyWord s.hostPalette s.pixels)]

/-- CLASSIFY (R136). -/
def execClassify (_cap : Bool) (s : State) : Outcome := perform .classify classifyResults s

end Sys2Proof.Machine
end

