-- ==== Sys2Proof/Machine/Serializer.lean ====
section
/-! DEFINITION. The block serializer (spec/45_serializer.md): the CompressedBlock's bytes and SERIALIZE. -/

namespace Sys2Proof.Machine

/-- `serialize(EP0, EP1, W)`: the eight bytes of the CompressedBlock, in address order (R54, R140). -/
def serializeBytes (ep0 ep1 : Endpoint) (w : Word) : List Byte :=
  [ep0.extractLsb' 0 8, ep0.extractLsb' 8 8, ep1.extractLsb' 0 8, ep1.extractLsb' 8 8,
   w.extractLsb' 0 8, w.extractLsb' 8 8, w.extractLsb' 16 8, w.extractLsb' 24 8]

/-- The two block words: `{ep1, ep0}` and the index word (R143). -/
def blockWords (ep0 ep1 : Endpoint) (w : Word) : List (DataReg × Word) := [(.blkLo, epWord ep0 ep1), (.blkHi, w)]

/-- What SERIALIZE writes (R143). The endpoints are neither compared nor exchanged (R142). -/
def serializeResults (s : State) : List (DataReg × Word) :=
  blockWords (ep0Of (s.value .ep)) (ep1Of (s.value .ep)) (s.value .idxw)

/-- SERIALIZE (R143). -/
def execSerialize (_cap : Bool) (s : State) : Outcome := perform .serialize serializeResults s

end Sys2Proof.Machine
end

