-- ==== Sys2Proof/Machine/Compress.lean ====
section
/-! DEFINITION. COMPRESS, the whole per-block pipeline (spec/46_compress_block.md R150). -/

namespace Sys2Proof.Machine

/-- EP0 of a block: the quantized max corner after the inset (R150). -/
def blockEp0 (ps : List Rgb) : Endpoint := pack565 (insetMax (rawMin ps) (rawMax ps))

/-- EP1 of a block: the quantized min corner after the inset (R150). -/
def blockEp1 (ps : List Rgb) : Endpoint := pack565 (insetMin (rawMin ps) (rawMax ps))

/-- The palette of a block (R150). -/
def blockPalette (ps : List Rgb) : Palette := paletteOf (blockEp0 ps) (blockEp1 ps)

/-- The index word of a block (R150). -/
def blockIndices (ps : List Rgb) : Word := classifyWord (blockPalette ps) ps

/-- What COMPRESS writes, from the pixel values: no stage reads a register another stage wrote (R150). -/
def compressWords (ps : List Rgb) : List (DataReg × Word) :=
  bboxWords ps ++ [(.ep, epWord (blockEp0 ps) (blockEp1 ps))] ++ paletteWords (blockPalette ps) ++
    [(.idxw, blockIndices ps)] ++ blockWords (blockEp0 ps) (blockEp1 ps) (blockIndices ps)

/-- What COMPRESS writes (R150). -/
def compressResults (s : State) : List (DataReg × Word) := compressWords s.pixels

/-- COMPRESS (R150). -/
def execCompress (_cap : Bool) (s : State) : Outcome := perform .compress compressResults s

end Sys2Proof.Machine
end

