-- ==== Sys2Proof/Machine/Reserved.lean ====
section
/-! DEFINITION. The reserved OP codes 6 and 7 (spec/46_compress_block.md R152): their behaviour is the rejection of R91. -/

namespace Sys2Proof.Machine

/-- OP 6: rejected as ILLEGAL_CMD, at once, with no data register changed (R91, R152). -/
def execReservedOp6 (_cap : Bool) (s : State) : Outcome := .next s.reject

/-- OP 7: rejected as ILLEGAL_CMD, at once, with no data register changed (R91, R152). -/
def execReservedOp7 (_cap : Bool) (s : State) : Outcome := .next s.reject

end Sys2Proof.Machine
end

