-- ==== Sys2Proof/Machine/Dispatch.lean ====
section
/-! DEFINITION. The dispatch: one arm per constructor of Instr, each the instruction's meaning. The meaning of a legal command is its
perform step (spec/40_command.md R92); the meaning of a reserved one is its rejection (R91). DEDUCED, log entries 13 and 14. -/

namespace Sys2Proof.Machine

/-- What an instruction does. -/
def exec (i : Instr) (s : State) : Host.Outcome State Fault Refusal :=
  match i with
  | .compress cap => Sys2Proof.Machine.execCompress cap s
  | .bbox cap => Sys2Proof.Machine.execBbox cap s
  | .quant cap => Sys2Proof.Machine.execQuant cap s
  | .palette cap => Sys2Proof.Machine.execPalette cap s
  | .classify cap => Sys2Proof.Machine.execClassify cap s
  | .serialize cap => Sys2Proof.Machine.execSerialize cap s
  | .reservedOp6 cap => Sys2Proof.Machine.execReservedOp6 cap s
  | .reservedOp7 cap => Sys2Proof.Machine.execReservedOp7 cap s

end Sys2Proof.Machine
end

