-- ==== Sys2Proof/Machine/Bus.lean ====
section
/-! DEFINITION. The register window: the checks of a bus access, reads, writes and command issue (spec/20_memory.md R50 to R53,
spec/40_command.md R90, R91), and the window's bytes at host addresses. -/

namespace Sys2Proof.Machine

/-- The checks of an access, in the order of R52: size and alignment, mapping, BUSY. The first that fails decides (R187). -/
def checkAccess (kind : AccessKind) (off : BitVec 8) (size : Nat) (s : State) : Except Fault Reg :=
  if size ≠ 4 ∨ off.toNat % 4 ≠ 0 then .error (.busError off size)
  else
    match regAt off with
    | none => .error (.busError off size)
    | some r =>
      if s.busy = true ∧ ¬ (kind = .read ∧ r = .status) then .error (.hostProtocol off kind)
      else .ok r

/-- What a register returns; none when it holds no value (R22 to R25). CMD and STATUS always hold one. -/
def State.readReg (s : State) : Reg → Option Word
  | .cmd => some s.cmd
  | .status => some (statusRead s.status)
  | .data r => if s.holds r then some (s.value r) else none

/-- `BusRead(off)` (R52): the model fault it raises, or the register's value. A read has no side effect (R58). -/
def busRead (off : BitVec 8) (size : Nat) (s : State) : Except (Unwritten ⊕ Fault) Word :=
  match checkAccess .read off size s with
  | .error f => .error (.inr f)
  | .ok r =>
    match s.readReg r with
    | none => .error (.inl (.read off))
    | some v => .ok v

/-- Command issue (R90): store the word; a legal command is latched, an illegal one rejected at once (R91). The reserved rows' own
meaning is that rejection. -/
def issue (w : Word) (s : State) : Outcome :=
  match decode w with
  | .error _ => .next (s.storeCmd w).reject
  | .ok i =>
    match i.op? with
    | some op => .next ((s.storeCmd w).latch op)
    | none => exec i (s.storeCmd w)

/-- A write to a register that passed the checks (R52): ignored when read-only (R33); CMD issues a command (R90); any other stores
the word and sets the valid bit. -/
def writeReg (r : Reg) (v : Word) (s : State) : Outcome :=
  if r.readOnly then .next s
  else
    match r with
    | .cmd => issue v s
    | .status => .next s
    | .data d => .next (s.put d v)

/-- `BusWrite(off, v)` (R52). -/
def busWrite (off : BitVec 8) (size : Nat) (v : Word) (s : State) : Outcome :=
  match checkAccess .write off size s with
  | .error f => .fault f
  | .ok r => writeReg r v s

/-- The byte of the window at a host address, with the window at `base` (R51, R53): byte `k` of the register at the aligned offset
below it. None outside the window, at an unmapped offset, and where the register holds no value. It is the byte placement of
R53, not an access: only whole 32-bit accesses are legal (R57). -/
def windowByte (base : Nat) (s : State) (addr : Nat) : Option Byte :=
  if base ≤ addr ∧ addr < base + 256 then
    match regAt (BitVec.ofNat 8 ((addr - base) / 4 * 4)) with
    | none => none
    | some r => (s.readReg r).map (fun v => byteOf v ((addr - base) % 4))
  else none

end Sys2Proof.Machine
end

