-- ==== Sys2Proof/Machine/HostContract.lean ====
section
/-! DEFINITION. The host contract: the assembler's forms (spec/30_encoding.md R81), the image walk and block extraction
(spec/47_host_image.md R160 to R170), and one step of the host. -/

namespace Sys2Proof.Machine

/-! ## Assembler forms (R81) -/

/-- The temporary `s` that the `poll` of `run`, and so of `compress_one`, reads STATUS into. R81 and R165 do not number it: DESIGN CHOICE,
log entry 29. -/
def tStatus : Nat := 0

/-- The temporary `lo` of `compress_one`'s `stblk`. R165 does not number it: DESIGN CHOICE, log entry 29. -/
def tLo : Nat := 1

/-- The temporary `hi` of `compress_one`'s `stblk`. R165 does not number it: DESIGN CHOICE, log entry 29. -/
def tHi : Nat := 2

/-- `wr NAME, v`, of a word. -/
def wrOp (r : Reg) (v : Word) : HostOp := .wr r.offset 4 v

/-- `wr NAME, t`, of a temporary. -/
def wrTempOp (r : Reg) (t : Nat) : HostOp := .wrTemp r.offset 4 t

/-- `rd NAME -> t`. -/
def rdOp (r : Reg) (t : Nat) : HostOp := .rd r.offset 4 t

/-- `cmd MNEMONIC` and `cmd MNEMONIC, cap`. -/
def cmdOp (i : Instr) : HostOp := wrOp .cmd (encode i)

/-- `run MNEMONIC`: `cmd MNEMONIC` then `poll`. -/
def runOps (i : Instr) : List HostOp := [cmdOp i, .poll tStatus]

/-- `ldblk p0, ..., p15`: the writes of PIX0 ... PIX15 in that order. -/
def ldblkOps (ps : List Word) : List HostOp := (pixRegs.zip ps).map (fun x => wrOp (.data x.1) x.2)

/-- `stblk -> lo, hi`: `rd BLK_LO -> lo` then `rd BLK_HI -> hi`. -/
def stblkOps (lo hi : Nat) : List HostOp := [rdOp (.data .blkLo) lo, rdOp (.data .blkHi) hi]

/-! ## The call's checks (R161, R162, R170) -/

/-- Width in pixels. -/
def Call.w (c : Call) : Nat := c.width.toNat

/-- Height in pixels. -/
def Call.h (c : Call) : Nat := c.height.toNat

/-- `width*height*4`, on naturals (R55, R170). -/
def Call.need (c : Call) : Nat := c.w * c.h * 4

/-- The CompressedImage's length, `(width/4)*(height/4)*8` (R56, R166). -/
def Call.outLen (c : Call) : Nat := c.w / 4 * (c.h / 4) * 8

/-- The error a call returns, if any: first InvalidDimensions (R161), second OutOfBounds (R162). -/
def callError (c : Call) : Option CallResult :=
  if c.w = 0 ∨ c.h = 0 ∨ c.w % 4 ≠ 0 ∨ c.h % 4 ≠ 0 then some (.invalidDimensions c.w c.h)
  else if c.len < c.need then some (.bufferTooShort c.len c.need)
  else none

/-- The host's addresses hold both buffers: `P + width*height*4` and `Q + (width/4)*(height/4)*8` fit `bits` bits (R170). -/
def Call.fits (bits : Nat) (c : Call) : Bool := decide (c.src + c.need < 2 ^ bits) && decide (c.dst + c.outLen < 2 ^ bits)

/-- Begin a call (R160): its checks in their order, then the walk from block 0. `bits` is the host's address width. Where the output
buffer lies is not checked: R50 and R166 presume that it shares no byte with the pixel buffer or with an earlier image, and the spec
gives no outcome when it does. The model runs such a call like any other (DESIGN CHOICE, log entry 26). -/
def startCall (bits : Nat) (c : Call) (s : State) : Outcome :=
  match callError c with
  | some e => .next (s.setResult (some e))
  | none =>
    if c.fits bits then .next ((s.setResult none).pushProg [.walk c 0])
    else .refused (.hostAddressWidth (max (c.src + c.need) (c.dst + c.outLen)))

/-! ## The walk (R163 to R166) -/

/-- The number of blocks of the image. -/
def Call.blocks (c : Call) : Nat := c.w / 4 * (c.h / 4)

/-- The left column `bx` of block number `k` in the walk's order (R163). -/
def Call.bx (c : Call) (k : Nat) : Nat := 4 * (k % (c.w / 4))

/-- The top row `by` of block number `k` in the walk's order (R163). -/
def Call.byRow (c : Call) (k : Nat) : Nat := 4 * (k / (c.w / 4))

/-- The address of the pixel at column `x` and row `y` (R55). -/
def Call.pixelAddr (c : Call) (x y : Nat) : Nat := c.src + (y * c.w + x) * 4

/-- The addresses of the block's 16 pixels at `(bx, by)`, in raster order (R164). -/
def Call.blockAddrs (c : Call) (bx byRow : Nat) : List Nat :=
  (List.range 16).map (fun i => c.pixelAddr (bx + i % 4) (byRow + i / 4))

/-- Read pixels at a list of addresses, in order; an address whose pixel passes the buffer's end is OutOfBounds (R164). -/
def readPixels (c : Call) (m : Memory) : List Nat → Except Nat (List Word)
  | [] => .ok []
  | a :: rest =>
    if (a - c.src) + 4 > c.len then .error a
    else
      match readPixels c m rest with
      | .error e => .error e
      | .ok ps => .ok (readWord m a :: ps)

/-- `extract(bx, by)` (R164). -/
def extractBlock (c : Call) (m : Memory) (bx byRow : Nat) : Except Nat (List Word) :=
  readPixels c m (c.blockAddrs bx byRow)

/-- The output offset of the block at `(bx, by)` (R56). -/
def Call.blockOffset (c : Call) (bx byRow : Nat) : Nat := (byRow / 4 * (c.w / 4) + bx / 4) * 8

/-- What the host does with one extracted block: load it, run COMPRESS, store the result at the block's offset (R165). -/
def blockOps (c : Call) (bx byRow : Nat) (ps : List Word) : List HostOp :=
  ldblkOps ps ++ runOps (.compress c.cap) ++ stblkOps tLo tHi ++
    [.memWrite (c.dst + c.blockOffset bx byRow) tLo, .memWrite (c.dst + c.blockOffset bx byRow + 4) tHi]

/-- `compress_one(bx, by)` (R165): the block is extracted, and its operations, then `more`, come next; an extraction past the
buffer ends the call with OutOfBounds (R164, R169; DEDUCED, log entry 24). The checks of R161, R162 and R170 are the call's, in
`startCall`: a block on its own runs without them (DESIGN CHOICE, log entry 28). -/
def compressOne (c : Call) (bx byRow : Nat) (more : List HostOp) (s : State) : Outcome :=
  match extractBlock c s.mem bx byRow with
  | .error a => .next (s.setResult (some (.extractPastEnd a)))
  | .ok ps => .next (s.pushProg (blockOps c bx byRow ps ++ more))

/-- Go on with the walk at block `k` (R163, R166): past the last block the call returns its image; else block `k`, then the rest of
the walk, come next. A call in which a model fault is raised never comes this far: its run has left the spec (R169), and the state is
terminal (`machineStep`). -/
def continueWalk (c : Call) (k : Nat) (s : State) : Outcome :=
  if k < c.blocks then compressOne c (c.bx k) (c.byRow k) [.walk c (k + 1)] s
  else .next (s.setResult (some (.image c.dst c.outLen)))

/-! ## One step of the host -/

/-- A bus read into a temporary; a poll that reads BUSY = 1 goes on polling (R81). -/
def pollOnce (t : Nat) (s : State) : Outcome :=
  match busRead (Reg.offset .status) 4 s with
  | .error m => raiseFault m s
  | .ok v => if busyBit v then .next ((s.setTemp t v).pushProg [.poll t]) else .next (s.setTemp t v)

/-- `rd`: a bus read into a temporary (R81); a read that faults writes no temporary. -/
def readInto (off : BitVec 8) (size t : Nat) (s : State) : Outcome :=
  match busRead off size s with
  | .error m => raiseFault m s
  | .ok v => .next (s.setTemp t v)

/-- One operation of the host, already taken from its program. `bits` is the host's address width. BUSY stops only accesses to the core
(R52, R185): a memory store, a call's checks, an extraction and a walk's own step run while a command is pending, although R202 counts
only STATUS reads among the host steps in between (DESIGN CHOICE, log entry 30). -/
def hostOp (bits : Nat) (op : HostOp) (s : State) : Outcome :=
  match op with
  | .wr off size v => busWrite off size v s
  | .wrTemp off size t => busWrite off size (s.temp t) s
  | .rd off size t => readInto off size t s
  | .poll t => pollOnce t s
  | .memWrite addr t => .next (s.setMem (writeWord s.mem addr (s.temp t)))
  | .compress c => startCall bits c s
  | .block c bx byRow => compressOne c bx byRow [] s
  | .walk c k => continueWalk c k s

end Sys2Proof.Machine
end

