-- ==== Sys2Proof/Machine/Turn.lean ====
section
/-! DEFINITION. Whose turn it is and what that agent does (spec/20_memory.md R61, spec/70_reset_and_hazards.md R200, R202), what a
model fault leaves (spec/10_state.md R27), and how a command is placed to be the next thing run. -/

namespace Sys2Proof.Machine

/-- The core's turn: perform the pending command (R92); an idle core does nothing (R195; DESIGN CHOICE, log entry 12). CAP is the stored command's bit. -/
def coreTurn (s : State) : Outcome :=
  match s.pending with
  | none => .next s
  | some op => exec (op.instr (capField s.cmd)) s

/-- The host's turn: the next operation of its program; a host that has finished does nothing (DESIGN CHOICE, log
entry 12). -/
def hostTurn (bits : Nat) (s : State) : Outcome :=
  match s.prog with
  | [] => .next s
  | op :: rest => hostOp bits op (s.setProg rest)

/-- One agent's step. -/
def agentTurn (bits : Nat) (a : Agent) (s : State) : Outcome :=
  match a with
  | .host => hostTurn bits s
  | .core => coreTurn s
  | .reset => .next s.resetCore

/-- The agent that moves when the schedule names none: the core while a command is pending, since perform is then its enabled step
(R202), else the host (DESIGN CHOICE, log entry 4). -/
def defaultAgent (s : State) : Agent :=
  match s.pending with
  | some _ => .core
  | none => .host

/-- The agent whose turn it is, taken from the schedule. -/
def takeTurn (bits : Nat) (s : State) : Outcome :=
  match s.schedule with
  | [] => agentTurn bits (defaultAgent s) s
  | a :: rest => agentTurn bits a (s.setSchedule rest)

/-- BusError and HostProtocol leave the state as it was, with FAULT set (R27; DEDUCED, log entry 3). -/
def absorbFault (s : State) (o : Outcome) : Outcome :=
  match o with
  | .fault f => .next (s.recordFault f)
  | .next t => .next t
  | .refused r => .refused r

/-- One step. A state with FAULT set is terminal (R9, R10, R27): with BusError or HostProtocol the fault is the outcome, with Unwritten the
state stays as it is (log entry 3). Else one agent's turn. -/
def machineStep (bits : Nat) (s : State) : Outcome :=
  match s.fault with
  | some f => .fault f
  | none =>
    match s.unwritten with
    | some _ => .next s
    | none => absorbFault s (takeTurn bits s)

/-- The state in which command word `w` is the next thing run. A legal command is pending, stored in CMD, with the core next: the
step performs it. An illegal one is the host's next CMD write to an idle core: the step rejects it (DESIGN
CHOICE, log entry 5). -/
def State.placeCommand (s : State) (w : Word) : State :=
  match decodeOp w with
  | some op => { s with cmd := w, status := statusBusy, pending := some op, schedule := .core :: s.schedule }
  | none =>
    { s with status := statusReset, pending := none, prog := wrOp .cmd w :: s.prog, schedule := .host :: s.schedule }

end Sys2Proof.Machine
end

