-- ==== Sys2Proof/Machine/Step.lean ====
section
/-! DEFINITION. The step of the machine, and how a command is placed for it. -/

namespace Sys2Proof.Machine

/-- One step of the core, the host or the reset line. -/
def step (s : State) : Host.Outcome State Fault Refusal := machineStep Config.hostAddrBits s

/-- `s` with the command whose `nbits` bits are `w` placed so that the next step runs exactly it. -/
def State.withFetchWord (s : State) (nbits w : Nat) : State := s.placeCommand (BitVec.ofNat 32 (w % 2 ^ nbits))

end Sys2Proof.Machine
end

