-- ==== Sys2Proof/Safety.lean ====
section
/-! DEFINITION. What a legal state, a final state and an equal block are, in the terms the statements use
(spec/10_state.md R21, R24 to R27, R32; spec/70_reset_and_hazards.md R207). -/

namespace Sys2Proof.Machine

/-- STATUS is one of its four legal values (R25). -/
def State.statusLegal (s : State) : Prop :=
  s.status = 0x00000000 ∨ s.status = 0x00000001 ∨ s.status = 0x00000002 ∨ s.status = 0x00000016

/-- BUSY is 1 exactly when a command is pending (R26). -/
def State.busyIffPending (s : State) : Prop := s.busy = true ↔ s.pending ≠ none

/-- PENDING is the operation of the word in CMD: the command in flight (R26, R90). -/
def State.pendingIsCmd (s : State) : Prop := ∀ op, s.pending = some op → decodeOp s.cmd = some op

/-- A reported ILLEGAL_CMD stands with the offending word in CMD (R180, R181). -/
def State.errorNamesCmd (s : State) : Prop := s.status = 0x00000016 → decodeOp s.cmd = none

/-- RGB888 registers store no bits [31:24] (R22, R32). -/
def State.reservedClear (s : State) : Prop := ∀ r : DataReg, r.isRgb = true → (s.cell r).val.extractLsb' 24 8 = 0

/-- A channel of DELTA is a sixteenth of the extent between RAWMIN and RAWMAX, rounded down (R21, R112). These three registers are
read-only to the host and written only together. -/
def State.deltaAgrees (s : State) : Prop :=
  ∀ k < 3,
    (byteOf (s.cell .rawmin).val k).toNat ≤ (byteOf (s.cell .rawmax).val k).toNat ∧
    (byteOf (s.cell .delta).val k).toNat =
      ((byteOf (s.cell .rawmax).val k).toNat - (byteOf (s.cell .rawmin).val k).toNat) / 16

/-- The invariant of the machine: the legal values of STATUS, what PENDING and ERR say of CMD, the reserved bits, the inset
registers, and the canonical form of memory and temporaries. -/
structure State.Inv (s : State) : Prop where
  statusLegal : s.statusLegal
  busyIffPending : s.busyIffPending
  pendingIsCmd : s.pendingIsCmd
  errorNamesCmd : s.errorNamesCmd
  reservedClear : s.reservedClear
  deltaAgrees : s.deltaAgrees
  memWf : s.mem.wf = true
  tempsWf : sparseWf s.temps = true

/-- A final state of a run: the host's program is at its end, nothing is pending, FAULT is none (R207). R207's 'last access' is read as the
end of the whole program: host steps that are no access to the core, a memory store or the walk's closing step, must be done too
(DESIGN CHOICE, log entry 31). -/
def State.final (s : State) : Prop := s.prog = [] ∧ s.pending = none ∧ s.firstFault = none

/-- The core's own state, without CMD, STATUS and the data registers, is the same: PENDING and FAULT, and all of the host's. -/
structure State.SameOutside (s t : State) : Prop where
  fault : t.fault = s.fault
  unwritten : t.unwritten = s.unwritten
  mem : t.mem = s.mem
  temps : t.temps = s.temps
  prog : t.prog = s.prog
  result : t.result = s.result
  schedule : t.schedule = s.schedule

/-- All that performing an operation may not change: CMD, FAULT, the host's state, and every data register outside the operation's
write set, its stored bits and its valid bit (R28). -/
structure State.PerformFrame (op : Op) (s t : State) : Prop where
  cmd : t.cmd = s.cmd
  outside : State.SameOutside s t
  regs : ∀ r : DataReg, r ∉ opWrites op → t.cell r = s.cell r

/-- What completion leaves: nothing pending, STATUS = DONE, and a value in every register of the write set (R92). -/
structure State.Completed (op : Op) (t : State) : Prop where
  pending : t.pending = none
  status : t.status = 0x00000002
  written : ∀ r ∈ opWrites op, t.holds r = true

/-- Every register an operation reads holds a value (R93, R201). -/
def State.Ready (op : Op) (s : State) : Prop := ∀ r ∈ opReads op, s.holds r = true

end Sys2Proof.Machine
end

