-- ==== Sys2Proof/Certificates/Slice0/Obligations.lean ====
section
/-! DEFINITION. The statements for the provers, from the numbered rules of spec/. The relations of `Sys2Proof.Claims` say what the rules
say on natural numbers and bit fields, without the model's own functions. -/

namespace Sys2Proof.Claims

open Sys2Proof.Machine

/-! ## The rules' values, on naturals -/

/-- Byte `k` of a word as a natural: channel R, G, B for `k` = 0, 1, 2, alpha or the reserved byte for `k` = 3 (R22). -/
def chan (w : Word) (k : Nat) : Nat := w.toNat / 2 ^ (8 * k) % 256

/-- Channel `k` of PIX`i`. -/
def pixChan (s : State) (i : Fin 16) (k : Nat) : Nat := chan (s.value (.pix i)) k

/-- The bounding box of the block in `s` and its inset stand in `t`'s RAWMIN, RAWMAX, DELTA, MINC and MAXC (R110, R112, R114): in each
channel the least and the greatest pixel value, a sixteenth of their difference rounded down, and the two corners moved by it; bits
[31:24] are 0. -/
def BoxOf (s t : State) : Prop :=
  (∀ k < 3,
    (∀ i, chan (t.value .rawmin) k ≤ pixChan s i k) ∧ (∃ i, pixChan s i k = chan (t.value .rawmin) k) ∧
    (∀ i, pixChan s i k ≤ chan (t.value .rawmax) k) ∧ (∃ i, pixChan s i k = chan (t.value .rawmax) k) ∧
    chan (t.value .delta) k = (chan (t.value .rawmax) k - chan (t.value .rawmin) k) / 16 ∧
    chan (t.value .minc) k = chan (t.value .rawmin) k + chan (t.value .delta) k ∧
    chan (t.value .maxc) k + chan (t.value .delta) k = chan (t.value .rawmax) k) ∧
  ∀ r ∈ [DataReg.rawmin, .rawmax, .delta, .minc, .maxc], chan (t.value r) 3 = 0

/-- The 565 endpoint of an RGB888 word: `{ r[7:3], g[7:2], b[7:3] }` (R100). -/
def packed (w : Word) : BitVec 16 := w.extractLsb' 3 5 ++ w.extractLsb' 10 6 ++ w.extractLsb' 19 5

/-- `t`'s EP is the min corner's endpoint above the max corner's, from `s`'s MINC and MAXC (R104). -/
def EndpointsOf (s t : State) : Prop := t.value .ep = packed (s.value .minc) ++ packed (s.value .maxc)

/-- Channel `k` of a re-expanded endpoint, by bit replication (R101). -/
def expanded (p k : Nat) : Nat :=
  if k = 0 then p / 2048 * 8 + p / 2048 / 4
  else if k = 1 then p / 32 % 64 * 4 + p / 32 % 64 / 16
  else p % 32 * 8 + p % 32 / 4

/-- `min((x * 21846) >> 16, 255)` (R121). -/
def third (x : Nat) : Nat := min (x * 21846 / 65536) 255

/-- EP0 of a state, as a natural. -/
def ep0 (s : State) : Nat := (s.value .ep).toNat % 65536

/-- EP1 of a state, as a natural. -/
def ep1 (s : State) : Nat := (s.value .ep).toNat / 65536

/-- `t`'s PAL0..PAL3 are the re-expanded endpoints of `s`'s EP and the two colours between them (R120, R124, R125). -/
def PaletteFrom (s t : State) : Prop :=
  (∀ k < 3,
    chan (t.value (.pal 0)) k = expanded (ep0 s) k ∧
    chan (t.value (.pal 1)) k = expanded (ep1 s) k ∧
    chan (t.value (.pal 2)) k = third (2 * expanded (ep0 s) k + expanded (ep1 s) k) ∧
    chan (t.value (.pal 3)) k = third (expanded (ep0 s) k + 2 * expanded (ep1 s) k)) ∧
  ∀ j : Fin 4, chan (t.value (.pal j)) 3 = 0

/-- `abs(a - b)` (R8). -/
def gap (a b : Nat) : Nat := (a - b) + (b - a)

/-- The SAD of pixel `i` to palette entry `j` (R130). -/
def sadOf (s : State) (i : Fin 16) (j : Fin 4) : Nat :=
  gap (pixChan s i 0) (chan (s.value (.pal j)) 0) + gap (pixChan s i 1) (chan (s.value (.pal j)) 1) +
    gap (pixChan s i 2) (chan (s.value (.pal j)) 2)

/-- The index of four distances: `2*(x0 | x1) + x2` with x0 = b1 and b2, x1 = b0 and b3, x2 = b0 and b4 (R132, R133). -/
def codeOf (d0 d1 d2 d3 : Nat) : Nat :=
  2 * (if (d1 > d2 ∧ d0 > d2) ∨ (d0 > d3 ∧ d1 > d3) then 1 else 0) + (if d0 > d3 ∧ d2 > d3 then 1 else 0)

/-- The index code of pixel `i` in an index word: bits [2i+1:2i] (R73). -/
def codeAt (w : Word) (i : Nat) : Nat := w.toNat / 4 ^ i % 4

/-- `t`'s IDXW holds the index of every pixel of `s` under `s`'s palette (R136). -/
def IndicesOf (s t : State) : Prop :=
  ∀ i : Fin 16, codeAt (t.value .idxw) i.val = codeOf (sadOf s i 0) (sadOf s i 1) (sadOf s i 2) (sadOf s i 3)

/-- `t`'s BLK_LO is `s`'s EP and its BLK_HI `s`'s IDXW (R143). -/
def BlockOf (s t : State) : Prop := t.value .blkLo = s.value .ep ∧ t.value .blkHi = s.value .idxw

/-- The whole pipeline: each stage's registers of `t` follow from the stage before, and the first from the pixels of `s` (R150). -/
def PipelineOf (s t : State) : Prop := BoxOf s t ∧ EndpointsOf t t ∧ PaletteFrom t t ∧ IndicesOf t t ∧ BlockOf t t

/-- `r` is the first register `op` reads that holds no value, in the order of R28's table (R93). -/
def FirstWithout (op : Op) (s : State) (r : DataReg) : Prop :=
  ∃ before after, opReads op = before ++ r :: after ∧ (∀ q ∈ before, s.holds q = true) ∧ s.holds r = false

/-- The OP code of each operation (R76). -/
def opNumber : Op → Nat
  | .compress => 0
  | .bbox => 1
  | .quant => 2
  | .palette => 3
  | .classify => 4
  | .serialize => 5

/-- An operation's rule (R97): its two command words; when every operand holds a value, it completes, writes its whole write set
with the result and changes nothing else; else it writes nothing and FAULT records Unwritten, naming the first operand without a value. -/
def OperationRule (instr : Bool → Instr) (op : Op) (word capWord : Word) (result : State → State → Prop) : Prop :=
  encode (instr false) = word ∧ encode (instr true) = capWord ∧
  ∀ (cap : Bool) (s : State),
    (s.Ready op → ∃ t, exec (instr cap) s = .next t ∧ t.Completed op ∧ s.PerformFrame op t ∧ result s t) ∧
    (∀ r, FirstWithout op s r → s.firstFault = none → exec (instr cap) s = .next { s with unwritten := some (.operand op r) })

/-- The offsets the register map gives a register (R21, R51). -/
def Mapped (off : BitVec 8) : Prop :=
  off.toNat % 4 = 0 ∧ (off.toNat ≤ 0x04 ∨ (0x10 ≤ off.toNat ∧ off.toNat ≤ 0x80))

/-- The data registers with host access read/write (R21). -/
def hostWritable : List DataReg :=
  (List.finRange 16).map .pix ++ [.minc, .maxc, .ep, .pal 0, .pal 1, .pal 2, .pal 3, .idxw]

/-- The registers with the RGB888 layout (R22). -/
def rgb888 : List DataReg := [.rawmin, .rawmax, .delta, .minc, .maxc, .pal 0, .pal 1, .pal 2, .pal 3]

/-- Two states have the same block, alpha aside, and the same palette and operand registers. -/
def SameButAlpha (s t : State) : Prop :=
  ∀ r : DataReg, (s.cell r).valid = (t.cell r).valid ∧
    (∀ k < 3, chan (s.value r) k = chan (t.value r) k) ∧ ((∀ i, r ≠ .pix i) → s.value r = t.value r)

/-- The argmin with ties to the lower index (R135). -/
def argmin (d0 d1 d2 d3 : Nat) : Nat :=
  if d0 ≤ d1 ∧ d0 ≤ d2 ∧ d0 ≤ d3 then 0 else if d1 ≤ d2 ∧ d1 ≤ d3 then 1 else if d2 ≤ d3 then 2 else 3

/-- An idle core between two operations of the host, with nothing scheduled. -/
structure Idle (s : State) : Prop where
  fault : s.firstFault = none
  pending : s.pending = none
  notBusy : s.busy = false
  schedule : s.schedule = []
  memWf : s.mem.wf = true
  tempsWf : sparseWf s.temps = true

/-- The four bytes of `m` from address `a` are the bytes of `w`, the least significant first (`MemRead(a, 4)` of R9; for a pixel, its R, G,
B and A at +0 to +3, R55, log entry 18). -/
def WordAt (m : Memory) (a : Nat) (w : Word) : Prop := ∀ k < 4, chan w k = (readByte m (a + k)).toNat

/-- The offset, from the pixel buffer's base, of pixel `i` in raster order of the block at `(bx, by)` (R55, R164). -/
def pixelOffset (c : Call) (bx byRow i : Nat) : Nat := ((byRow + i / 4) * c.width.toNat + (bx + i % 4)) * 4

/-- The host's access to the core: a `BusRead` or `BusWrite` of an offset and a size (R52, R81). -/
def IsAccess (op : HostOp) (kind : AccessKind) (off : BitVec 8) (size : Nat) : Prop :=
  match kind with
  | .read => ∃ x, op = .rd off size x
  | .write => (∃ v, op = .wr off size v) ∨ ∃ x, op = .wrTemp off size x

/-- No fault mark stands and it is the host's turn, with `op` next and `prog` and `sched` after it. -/
def HostTurn (s : State) (op : HostOp) (prog : List HostOp) (sched : List Agent) : Prop :=
  s.firstFault = none ∧ s.prog = op :: prog ∧
    (s.schedule = .host :: sched ∨ (s.schedule = [] ∧ sched = [] ∧ s.pending = none))

/-- The eight output bytes of block number `k` of call `c` in `t`'s memory are the CompressedBlock of its pixels as their bytes stand in
`m` (R54, R55, R164, R165; log entry 18): COMPRESS on any state whose PIX registers hold those pixels gives them. -/
def BlockStored (c : Call) (m : Memory) (k : Nat) (t : State) : Prop :=
  ∀ u : State,
    (∀ i : Fin 16, u.holds (.pix i) = true ∧
      WordAt m (c.src + pixelOffset c (4 * (k % (c.width.toNat / 4))) (4 * (k / (c.width.toNat / 4))) i.val) (u.value (.pix i))) →
    ∃ v, exec (.compress c.cap) u = .next v ∧
      ∀ j < 4, (readByte t.mem (c.dst + 8 * k + j)).toNat = chan (v.value .blkLo) j ∧
        (readByte t.mem (c.dst + 8 * k + 4 + j)).toNat = chan (v.value .blkHi) j

end Sys2Proof.Claims

open Sys2Proof Sys2Proof.Machine Sys2Proof.Claims

/-! ## Encoding and decoding -/

/-- R80: the legal command words and examples of illegal ones. -/
def Obligations.CommandWordsDecode : Prop :=
  decode 0x00000000 = .ok (.compress false) ∧ decode 0x00000008 = .ok (.compress true) ∧
  decode 0x00000001 = .ok (.bbox false) ∧ decode 0x00000009 = .ok (.bbox true) ∧
  decode 0x00000002 = .ok (.quant false) ∧ decode 0x0000000A = .ok (.quant true) ∧
  decode 0x00000003 = .ok (.palette false) ∧ decode 0x0000000B = .ok (.palette true) ∧
  decode 0x00000004 = .ok (.classify false) ∧ decode 0x0000000C = .ok (.classify true) ∧
  decode 0x00000005 = .ok (.serialize false) ∧ decode 0x0000000D = .ok (.serialize true) ∧
  decodeOp 0x00000006 = none ∧ decodeOp 0x00000007 = none ∧ decodeOp 0x0000000E = none ∧ decodeOp 0x0000000F = none ∧
  decodeOp 0x00000010 = none ∧ decodeOp 0x80000000 = none

/-- Decode and encode agree on every instruction, with either capability bit, and a word that decodes to an instruction is that
instruction's one word: no bit of a command word is dropped (spec/30_encoding.md section 2). -/
def Obligations.DecodeAndEncodeAgree : Prop :=
  (∀ i : Instr, decode (encode i) = .ok i) ∧ ∀ (w : Word) (i : Instr), decode w = .ok i → encode i = w

/-- R78: decode is total; each legal operation has exactly two words, `OP` and `OP | 0x8`, and its match and mask pair; every other
word is Illegal. -/
def Obligations.DecodeIsTotal : Prop :=
  ∀ w : Word,
    (decodeOp w = none ↔ w.toNat / 16 ≠ 0 ∨ w.toNat % 8 = 6 ∨ w.toNat % 8 = 7) ∧
    ∀ op,
      (decodeOp w = some op ↔ w.toNat / 16 = 0 ∧ w.toNat % 8 = opNumber op) ∧
      (decodeOp w = some op ↔ w.toNat = opNumber op ∨ w.toNat = opNumber op + 8) ∧
      (decodeOp w = some op ↔ w &&& 0xFFFFFFF7 = BitVec.ofNat 32 (opNumber op))

/-! ## The six operations and the reserved codes -/

/-- R150: COMPRESS. -/
def Obligations.CompressRule : Prop := OperationRule .compress .compress 0x00000000 0x00000008 PipelineOf

/-- R114: BBOX. -/
def Obligations.BboxRule : Prop := OperationRule .bbox .bbox 0x00000001 0x00000009 BoxOf

/-- R104: QUANT. -/
def Obligations.QuantRule : Prop := OperationRule .quant .quant 0x00000002 0x0000000A EndpointsOf

/-- R125: PALETTE. -/
def Obligations.PaletteRule : Prop := OperationRule .palette .palette 0x00000003 0x0000000B PaletteFrom

/-- R136: CLASSIFY. -/
def Obligations.ClassifyRule : Prop := OperationRule .classify .classify 0x00000004 0x0000000C IndicesOf

/-- R143: SERIALIZE, with the eight bytes of the window at offsets 0x7C to 0x83. -/
def Obligations.SerializeRule : Prop :=
  OperationRule .serialize .serialize 0x00000005 0x0000000D (fun s t =>
    BlockOf s t ∧ ∀ (base : Nat), ∀ j < 4,
      windowByte base t (base + 0x7C + j) = some (BitVec.ofNat 8 (chan (s.value .ep) j)) ∧
      windowByte base t (base + 0x80 + j) = some (BitVec.ofNat 8 (chan (s.value .idxw) j)))

/-- R152: a reserved OP code, whatever CAP, is rejected as ILLEGAL_CMD: it completes at once, with no operand read and no data
register, memory byte or host state changed. As a CMD write to an idle core, CMD also holds the word. -/
def Obligations.ReservedOpsAreRejected : Prop :=
  (∀ (cap : Bool) (s : State),
    exec (.reservedOp6 cap) s = .next { s with pending := none, status := 0x00000016 } ∧
    exec (.reservedOp7 cap) s = .next { s with pending := none, status := 0x00000016 }) ∧
  ∀ (w : Word) (s : State), w.toNat / 16 = 0 → (w.toNat % 8 = 6 ∨ w.toNat % 8 = 7) → s.busy = false →
    busWrite 0x00 4 w s = .next { s with cmd := w, pending := none, status := 0x00000016 }

/-! ## A command's phases -/

/-- R90, R91: a CMD write that passes the bus checks stores the word; a legal one sets PENDING and STATUS = 1, an illegal one clears PENDING
and sets STATUS = 0x16; nothing else changes. -/
def Obligations.IssueOrReject : Prop :=
  ∀ (w : Word) (s : State), s.busy = false →
    (∀ op, decodeOp w = some op →
      busWrite 0x00 4 w s = .next { s with cmd := w, pending := some op, status := 0x00000001 }) ∧
    (decodeOp w = none → busWrite 0x00 4 w s = .next { s with cmd := w, pending := none, status := 0x00000016 })

/-- The step runs the decoded instruction (R92's perform as the instruction's meaning and the schedule are the model's, log entries 4 and
14): on the core's turn, with the operation of the well-formed instruction in CMD pending, the
step is that instruction's meaning, with the turn taken from the schedule. -/
def Obligations.StepRunsTheInstruction : Prop :=
  ∀ (s : State) (i : Instr) (rest : List Agent),
    s.firstFault = none → decode s.cmd = .ok i → i.wellFormed = true → s.pending = i.op? →
    (s.schedule = .core :: rest ∨ (s.schedule = [] ∧ rest = [])) →
    step s = exec i { s with schedule := rest }

/-- A placed command word (the model's placement, log entry 5) runs as its instruction in the very next step: a legal one from CMD with BUSY, a reserved one as the CMD
write of an idle core. -/
def Obligations.PlacedWordRuns : Prop :=
  ∀ (s : State) (nbits w : Nat) (i : Instr), s.firstFault = none → decodeTableWord nbits w = some i →
    (∀ op, i.op? = some op →
      step (s.withFetchWord nbits w) =
        exec i { s with cmd := BitVec.ofNat 32 (w % 2 ^ nbits), status := 0x00000001, pending := some op }) ∧
    (i.op? = none →
      step (s.withFetchWord nbits w) =
        exec i { s with cmd := BitVec.ofNat 32 (w % 2 ^ nbits), status := 0x00000000, pending := none })

/-- From R92, R93 and R94, as a step (the schedule that gives the core its turn is the model's, log entry 4): the perform step of a pending
command answers the next state of its meaning, with every result written and BUSY cleared at once, or, on a missing operand, writes
nothing and sets FAULT. In both cases the step is the command's meaning, with the turn taken from the schedule. -/
def Obligations.PerformStep : Prop :=
  ∀ (s : State) (op : Op) (rest : List Agent), s.firstFault = none → s.pending = some op → s.schedule = .core :: rest →
    (s.Ready op → ∃ t, step s = .next t ∧ exec (op.instr (capField s.cmd)) { s with schedule := rest } = .next t ∧
      t.Completed op ∧ State.PerformFrame op { s with schedule := rest } t) ∧
    (∀ r, FirstWithout op s r →
      step s = .next { s with schedule := rest, unwritten := some (.operand op r) } ∧
      exec (op.instr (capField s.cmd)) { s with schedule := rest } = step s)

/-- From R28, R92 and R93: an operation either had a value in every register it reads, and then writes its write set and changes no other
register, no byte of memory and none of the host's state; or it changes nothing but FAULT, which keeps the first model fault raised. -/
def Obligations.OperationFrame : Prop :=
  ∀ (op : Op) (cap : Bool) (s : State),
    ∃ t, exec (op.instr cap) s = .next t ∧ (∀ a, readByte t.mem a = readByte s.mem a) ∧
      ((s.Ready op ∧ t.Completed op ∧ s.PerformFrame op t) ∨
        (¬ s.Ready op ∧ t = { s with unwritten := t.unwritten } ∧ (s.firstFault = none ∨ t = s)))

/-- R95: an operation's results are a function of its operands' values: not of CAP, of other registers, of earlier commands or of the
host. -/
def Obligations.ResultsDependOnOperandsOnly : Prop :=
  ∀ (op : Op) (cap cap' : Bool) (s s' t t' : State),
    (∀ r ∈ opReads op, s.value r = s'.value r) → s.Ready op → s'.Ready op →
    exec (op.instr cap) s = .next t → exec (op.instr cap') s' = .next t' →
    ∀ r ∈ opWrites op, t.cell r = t'.cell r

/-- R111: alpha takes no part in any rule: two states that differ only in the pixels' alpha bytes give the same results. -/
def Obligations.AlphaHasNoEffect : Prop :=
  ∀ (op : Op) (cap : Bool) (s s' t : State), SameButAlpha s s' → s.Ready op → exec (op.instr cap) s = .next t →
    ∃ t', exec (op.instr cap) s' = .next t' ∧ ∀ r ∈ opWrites op, t.cell r = t'.cell r

/-- R151: COMPRESS leaves every register as the sequence BBOX, QUANT, PALETTE, CLASSIFY, SERIALIZE does. -/
def Obligations.CompressEqualsItsParts : Prop :=
  ∀ (cap c1 c2 c3 c4 c5 : Bool) (s : State), s.Ready .compress →
    ∃ t a b c d e, exec (.compress cap) s = .next t ∧ exec (.bbox c1) s = .next a ∧ exec (.quant c2) a = .next b ∧
      exec (.palette c3) b = .next c ∧ exec (.classify c4) c = .next d ∧ exec (.serialize c5) d = .next e ∧
      ∀ r : DataReg, t.cell r = e.cell r

/-! ## The arithmetic -/

/-- R113: the inset never inverts the box. After BBOX, in every channel: DELTA is a sixteenth of the extent, at most 15; twice DELTA is
at most an eighth of the extent; RAWMIN <= MINC <= MAXC <= RAWMAX; the extent shrinks by twice DELTA; the addition stays within 8
bits and the subtraction does not go below zero. -/
def Obligations.InsetNeverInverts : Prop :=
  ∀ (cap : Bool) (s t : State), s.Ready .bbox → exec (.bbox cap) s = .next t → ∀ k < 3,
    chan (t.value .rawmin) k ≤ chan (t.value .rawmax) k ∧
    chan (t.value .delta) k = (chan (t.value .rawmax) k - chan (t.value .rawmin) k) / 16 ∧ chan (t.value .delta) k ≤ 15 ∧
    16 * chan (t.value .delta) k ≤ chan (t.value .rawmax) k - chan (t.value .rawmin) k ∧
    chan (t.value .rawmin) k ≤ chan (t.value .minc) k ∧ chan (t.value .minc) k ≤ chan (t.value .maxc) k ∧
    chan (t.value .maxc) k ≤ chan (t.value .rawmax) k ∧
    chan (t.value .maxc) k - chan (t.value .minc) k =
      (chan (t.value .rawmax) k - chan (t.value .rawmin) k) - 2 * chan (t.value .delta) k ∧
    chan (t.value .rawmin) k + chan (t.value .delta) k ≤ 255 ∧ chan (t.value .delta) k ≤ chan (t.value .rawmax) k

/-- R103: re-expansion is undone by packing; packing then re-expanding keeps R101's masked bits and mirrors the top ones, so that it is
not the identity but stays within 7 of red and blue and within 3 of green; packing is monotone; the two ends of the range. -/
def Obligations.QuantizerRoundTrip : Prop :=
  (∀ p : Endpoint, pack565 (unpack565 p) = p) ∧
  (∀ c : Rgb, unpack565 (pack565 c) =
    ⟨(c.r &&& 0xF8) ||| (c.r >>> 5), (c.g &&& 0xFC) ||| (c.g >>> 6), (c.b &&& 0xF8) ||| (c.b >>> 5)⟩) ∧
  unpack565 (pack565 ⟨128, 128, 128⟩) = ⟨132, 130, 132⟩ ∧
  (∀ c : Rgb,
    gap (unpack565 (pack565 c)).r.toNat c.r.toNat ≤ 7 ∧ gap (unpack565 (pack565 c)).g.toNat c.g.toNat ≤ 3 ∧
    gap (unpack565 (pack565 c)).b.toNat c.b.toNat ≤ 7) ∧
  (∀ a b : Rgb, a.r ≤ b.r → a.g ≤ b.g → a.b ≤ b.b → pack565 a ≤ pack565 b) ∧
  pack565 ⟨0, 0, 0⟩ = 0x0000 ∧ pack565 ⟨255, 255, 255⟩ = 0xFFFF ∧
  unpack565 0x0000 = ⟨0, 0, 0⟩ ∧ unpack565 0xFFFF = ⟨255, 255, 255⟩

/-- R123: the reciprocal multiply is division by 3 on every palette input; the first value where they differ is 32768. -/
def Obligations.ReciprocalIsThirdOnPaletteInputs : Prop :=
  (∀ x : BitVec 16, x.toNat ≤ 765 → (reciprocalMul3 x).toNat = x.toNat / 3) ∧
  (∀ x : Nat, x < 32768 → x * reciprocalK / 65536 = x / 3) ∧ 32768 * reciprocalK / 65536 = 10923 ∧ 32768 / 3 = 10922

/-- R126: the palette lies in order between its endpoints, in every channel; channels that agree in both endpoints have that value
throughout; the gaps need not be even: endpoints 247 and 8 give 167 and 87 between them. -/
def Obligations.PaletteIsOrdered : Prop :=
  (∀ (cap : Bool) (s t : State), s.Ready .palette → exec (.palette cap) s = .next t → ∀ k < 3,
    (∀ v, chan (t.value (.pal 0)) k = v → chan (t.value (.pal 1)) k = v →
      chan (t.value (.pal 2)) k = v ∧ chan (t.value (.pal 3)) k = v) ∧
    (chan (t.value (.pal 1)) k ≤ chan (t.value (.pal 0)) k →
      chan (t.value (.pal 1)) k ≤ chan (t.value (.pal 3)) k ∧ chan (t.value (.pal 3)) k ≤ chan (t.value (.pal 2)) k ∧
      chan (t.value (.pal 2)) k ≤ chan (t.value (.pal 0)) k) ∧
    (chan (t.value (.pal 0)) k ≤ chan (t.value (.pal 1)) k →
      chan (t.value (.pal 0)) k ≤ chan (t.value (.pal 2)) k ∧ chan (t.value (.pal 2)) k ≤ chan (t.value (.pal 3)) k ∧
      chan (t.value (.pal 3)) k ≤ chan (t.value (.pal 1)) k)) ∧
  (∀ v : Byte, reciprocalMul3 (BitVec.ofNat 16 (3 * v.toNat)) = v) ∧ twoThirds 247 8 = 167 ∧ twoThirds 8 247 = 87

/-- R134: the comparator network in closed form, for all distances, and its four consequences. -/
def Obligations.NetworkClosedForm : Prop :=
  ∀ d0 d1 d2 d3 : Nat,
    ((network d0 d1 d2 d3).toNat =
      if d0 > d3 ∧ d2 > d3 then (if d1 ≤ d3 then 1 else 3)
      else if (d1 > d2 ∧ d0 > d2) ∨ (d0 > d3 ∧ d1 > d3) then 2 else 0) ∧
    (d0 ≤ d1 → d0 ≤ d2 → d0 ≤ d3 → network d0 d1 d2 d3 = 0) ∧
    (d3 < d0 → d3 < d1 → d3 < d2 → network d0 d1 d2 d3 = 3) ∧
    (d2 < d0 → d2 < d1 → d2 ≤ d3 → network d0 d1 d2 d3 = 2) ∧
    (d1 ≤ d3 → d3 < d0 → d3 < d2 → network d0 d1 d2 d3 = 1)

/-- R135: the network is argmin with ties to the lower index, but for one case: it gives 0 where argmin gives 1 and `d3` is not below
both `d0` and `d2`; the rule's two examples are such cases. -/
def Obligations.NetworkAgainstArgmin : Prop :=
  (∀ d0 d1 d2 d3 : Nat, (network d0 d1 d2 d3).toNat =
    if argmin d0 d1 d2 d3 = 1 ∧ ¬ (d3 < d0 ∧ d3 < d2) then 0 else argmin d0 d1 d2 d3) ∧
  argmin 5 1 3 4 = 1 ∧ network 5 1 3 4 = 0 ∧ argmin 63 58 58 59 = 1 ∧ network 63 58 58 59 = 0

/-- From R137: lane `i` of CLASSIFY reads only pixel `i` and the palette: a pixel's index does not depend on another pixel. -/
def Obligations.LanesAreIndependent : Prop :=
  ∀ (cap : Bool) (s s' t t' : State) (i : Fin 16),
    s.value (.pix i) = s'.value (.pix i) → (∀ j, s.value (.pal j) = s'.value (.pal j)) →
    s.Ready .classify → s'.Ready .classify → exec (.classify cap) s = .next t → exec (.classify cap) s' = .next t' →
    codeAt (t.value .idxw) i.val = codeAt (t'.value .idxw) i.val

/-- From R142, for the pipeline: EP0 >= EP1 as 16-bit values for every block, and every index is 0 when they are equal. -/
def Obligations.EndpointsOrderedByCompress : Prop :=
  ∀ (cap : Bool) (s t : State), s.Ready .compress → exec (.compress cap) s = .next t →
    ep1 t ≤ ep0 t ∧ (ep0 t = ep1 t → t.value .idxw = 0)

/-- R153: a solid block. -/
def Obligations.SolidBlock : Prop :=
  ∀ (cap : Bool) (s : State) (c : Word), s.Ready .compress → chan c 3 = 0 →
    (∀ i : Fin 16, ∀ k < 3, pixChan s i k = chan c k) →
    ∃ t, exec (.compress cap) s = .next t ∧
      t.value .rawmin = c ∧ t.value .rawmax = c ∧ t.value .minc = c ∧ t.value .maxc = c ∧ t.value .delta = 0 ∧
      t.value .ep = packed c ++ packed c ∧ t.value .idxw = 0 ∧
      ∀ j : Fin 4, (∀ k < 3, chan (t.value (.pal j)) k = expanded (packed c).toNat k) ∧ chan (t.value (.pal j)) 3 = 0

/-- R154: an all-black block compresses to eight zero bytes. -/
def Obligations.BlackBlock : Prop :=
  ∀ (cap : Bool) (s : State), s.Ready .compress → (∀ i : Fin 16, ∀ k < 3, pixChan s i k = 0) →
    ∃ t, exec (.compress cap) s = .next t ∧ t.value .blkLo = 0x00000000 ∧ t.value .blkHi = 0x00000000

/-! ## The register window -/

/-- From R30: no two names refer to the same storage: registers have distinct offsets, and a host write of one leaves every other as it was. -/
def Obligations.RegistersAreDistinct : Prop :=
  (∀ r q : Reg, r.offset = q.offset → r = q) ∧
  ∀ (s : State) (r q : DataReg) (v : Word), q ≠ r → (s.put r v).cell q = s.cell q

/-- R186: an access that is not 32 bits wide, not 4-byte aligned, or to an unmapped offset is BusError, before any other check. -/
def Obligations.BadAccessIsBusError : Prop :=
  ∀ (off : BitVec 8) (size : Nat) (v : Word) (s : State), (size ≠ 4 ∨ ¬ Mapped off) →
    busRead off size s = .error (.inr (.busError off size)) ∧ busWrite off size v s = .fault (.busError off size)

/-- R185: while BUSY = 1, any access that is no BusError is HostProtocol, but for a read of STATUS, which returns it. -/
def Obligations.AccessWhileBusy : Prop :=
  ∀ (off : BitVec 8) (v : Word) (s : State), Mapped off → s.busy = true →
    busWrite off 4 v s = .fault (.hostProtocol off .write) ∧
    (off ≠ 0x04 → busRead off 4 s = .error (.inr (.hostProtocol off .read))) ∧
    (off = 0x04 → busRead off 4 s = .ok (s.status &&& 0x000000F7))

/-- From R23, R52 and R184: on an idle core a read returns the register's value; where a data register holds none it faults Unwritten, and
FAULT records the offset. That the host's read then writes no temporary and changes nothing but FAULT is read by the model, with R93's words
for the perform step carried over to R52's read (DEDUCED, log entry 2). -/
def Obligations.ReadsReturnRegisters : Prop :=
  ∀ s : State, s.busy = false →
    busRead 0x00 4 s = .ok s.cmd ∧ busRead 0x04 4 s = .ok (s.status &&& 0x000000F7) ∧
    ∀ (r : DataReg) (bits x : Nat),
      (s.holds r = true → busRead (Reg.data r).offset 4 s = .ok (s.value r) ∧
        hostOp bits (.rd (Reg.data r).offset 4 x) s = .next (s.setTemp x (s.value r))) ∧
      (s.holds r = false → busRead (Reg.data r).offset 4 s = .error (.inl (.read (Reg.data r).offset)) ∧
        (s.firstFault = none →
          hostOp bits (.rd (Reg.data r).offset 4 x) s = .next { s with unwritten := some (.read (Reg.data r).offset) }))

/-- R33, and from R22 and R23 for the registers a host may write: on an idle core a write to a read/write data register stores its bits (an
RGB888 register's reserved bits aside), sets its valid bit and changes no other register; a later read returns the stored bits. A
write to a read-only register changes nothing. -/
def Obligations.WritesStoreOrAreIgnored : Prop :=
  ∀ (s : State) (v : Word), s.busy = false →
    (∀ r ∈ hostWritable,
      ∃ t, busWrite (Reg.data r).offset 4 v s = .next t ∧ t.holds r = true ∧
        (∀ k < 4, chan (t.value r) k = if r ∈ rgb888 ∧ k = 3 then 0 else chan v k) ∧
        busRead (Reg.data r).offset 4 t = .ok (t.value r) ∧
        (∀ q, q ≠ r → t.cell q = s.cell q) ∧ t.cmd = s.cmd ∧ t.status = s.status ∧ t.pending = s.pending ∧
        State.SameOutside s t) ∧
    (∀ r ∈ [Reg.status, .data .rawmin, .data .rawmax, .data .delta, .data .blkLo, .data .blkHi],
      busWrite r.offset 4 v s = .next s)

/-- From R51 and R53: the window is little-endian: byte `k` at BASE + off + k is bits [8k+7:8k] of the register at `off`; no byte outside
the 256 bytes from BASE is the core's. -/
def Obligations.WindowIsLittleEndian : Prop :=
  (∀ (base : Nat) (s : State) (r : Reg) (v : Word), s.readReg r = some v → ∀ k < 4,
    windowByte base s (base + r.offset.toNat + k) = some (BitVec.ofNat 8 (chan v k))) ∧
  ∀ (base : Nat) (s : State) (a : Nat), (a < base ∨ base + 256 ≤ a) → windowByte base s a = none

/-! ## Faults, reset, invariants -/

/-- From R9, R10 and R27: a state with FAULT set is terminal and never final. That no step at all follows, whatever is due, is read by the model
from "terminal" (DEDUCED, log entry 3): with BusError or HostProtocol every step ends in the fault, and with Unwritten every step answers
the same state; and that this holds of a scheduled reset too, so that a reset has no effect once FAULT is set, is its consequence
(DEDUCED, log entry 11). -/
def Obligations.FaultIsTerminal : Prop :=
  (∀ (s : State) (f : Fault), s.fault = some f → (∀ a, step (s.setSchedule a) = .fault f) ∧ ¬ s.final) ∧
  ∀ (s : State) (u : Unwritten), s.fault = none → s.unwritten = some u →
    (∀ a, step (s.setSchedule a) = .next (s.setSchedule a)) ∧ ¬ s.final

/-- From R27, for every model fault: FAULT keeps the first one raised; no step clears or changes it, a reset included. -/
def Obligations.FaultMarkIsNeverCleared : Prop :=
  ∀ (s t : State) (m : Unwritten ⊕ Fault), s.firstFault = some m → step s = .next t → t.firstFault = some m

/-- The step that raises a model fault writes nothing (R93, R94, R27): no register, no byte of memory, no temporary and no call result
changes. That the fault is a next state with FAULT set is the model's form (log entry 3). -/
def Obligations.FaultingStepWritesNothing : Prop :=
  ∀ s t : State, s.firstFault = none → step s = .next t → t.firstFault ≠ none →
    t.cmd = s.cmd ∧ t.status = s.status ∧ t.pending = s.pending ∧ (∀ r : DataReg, t.cell r = s.cell r) ∧ t.mem = s.mem ∧
      t.temps = s.temps ∧ t.result = s.result

/-- From R27, R52, R184, R185 and R186: the step of a host access that meets a model fault sets FAULT to that fault, with the information
it records. Of BusError and HostProtocol the step changes nothing else; of Unwritten it takes the turn and the operation, and changes
nothing else (DEDUCED, log entries 2 and 3). Whose turn it is is the schedule's (log entry 4). A `poll` reads STATUS and meets none. -/
def Obligations.FaultingAccessSetsFault : Prop :=
  ∀ (s : State) (op : HostOp) (prog : List HostOp) (sched : List Agent), HostTurn s op prog sched →
    (∀ (kind : AccessKind) (off : BitVec 8) (size : Nat), IsAccess op kind off size →
      ((size ≠ 4 ∨ ¬ Mapped off) → step s = .next { s with fault := some (.busError off size) }) ∧
      (size = 4 → Mapped off → s.busy = true → ¬ (kind = .read ∧ off = 0x04) →
        step s = .next { s with fault := some (.hostProtocol off kind) })) ∧
    ∀ (r : DataReg) (x : Nat), op = .rd (Reg.data r).offset 4 x → s.busy = false → s.holds r = false →
      step s = .next { s with schedule := sched, prog := prog, unwritten := some (.read (Reg.data r).offset) }

/-- The state right after power-on reset has the values of R35's table, and no fault. -/
def Obligations.ResetState : Prop :=
  State.reset.cmd = 0x00000000 ∧ State.reset.status = 0x00000000 ∧ State.reset.pending = none ∧ State.reset.firstFault = none ∧
    ∀ r : DataReg, State.reset.holds r = false

/-- From R35 and R200: a reset event, at any time, gives CMD = 0, STATUS = 0, PENDING none and no register a value; a pending command's
results are not written; FAULT is unchanged. A data register then stores what it stores right after power-on, its unspecified value (DESIGN
CHOICE, log entry 1). That the host's memory, temporaries, program and call result are unchanged is read by the
model (DEDUCED, log entry 11), and that the reset is a scheduled turn is the model's choice (log entry 4). A state with FAULT set is
FaultIsTerminal's. -/
def Obligations.ResetEvent : Prop :=
  ∀ (s : State) (rest : List Agent), s.firstFault = none → s.schedule = .reset :: rest →
    ∃ t, step s = .next t ∧ t.cmd = 0x00000000 ∧ t.status = 0x00000000 ∧ t.pending = none ∧
      (∀ r : DataReg, t.holds r = false ∧ t.cell r = State.reset.cell r) ∧ State.SameOutside { s with schedule := rest } t

/-- The invariant holds right after reset; where no value is given it rests on log entries 1, 6 and 7. -/
def Obligations.ResetMeetsInvariant : Prop := State.reset.Inv

/-- Every step keeps the invariant: STATUS has a legal value (R25), BUSY is 1 exactly when a command is pending (R26), PENDING and a
reported error agree with CMD, reserved bits stay clear (R32), DELTA agrees with RAWMIN and RAWMAX (R112, log
entry 1), memory and temporaries stay canonical (log entries 6 and 7). -/
def Obligations.StepKeepsInvariant : Prop := ∀ s t : State, s.Inv → step s = .next t → t.Inv

/-- From R25 and R31: STATUS changes only by a command's issue, its rejection, its completion, or reset, and to that event's value. -/
def Obligations.StatusChangesOnlyByCommandsAndReset : Prop :=
  ∀ s t : State, step s = .next t → t.status ≠ s.status →
    (s.busy = false ∧ t.status = 0x00000001 ∧ ∃ op, decodeOp t.cmd = some op ∧ t.pending = some op) ∨
    (s.busy = false ∧ t.status = 0x00000016 ∧ decodeOp t.cmd = none ∧ t.pending = none) ∨
    (t.status = 0x00000002 ∧ ∃ op, s.pending = some op ∧ t.Completed op) ∨
    (t.status = 0x00000000 ∧ t.cmd = 0 ∧ t.pending = none ∧ ∀ r : DataReg, t.holds r = false)

/-- From R62, R65 and R94: while a command is pending, a step changes no data register and leaves it pending, or performs it whole, leaving
every data register as the command's meaning does on the state before the step, or is a reset. The premise is the invariant: BUSY is 1
exactly when a command is pending. -/
def Obligations.PendingCommandIsAllOrNothing : Prop :=
  ∀ (s t : State) (op : Op), s.Inv → s.pending = some op → step s = .next t →
    (t.pending = some op ∧ t.cmd = s.cmd ∧ t.status = s.status ∧ ∀ r : DataReg, t.cell r = s.cell r) ∨
    (s.Ready op ∧ t.Completed op ∧ (∀ r : DataReg, r ∉ opWrites op → t.cell r = s.cell r) ∧
      ∃ u, exec (op.instr (capField s.cmd)) s = .next u ∧ ∀ r : DataReg, t.cell r = u.cell r) ∨
    (t.pending = none ∧ t.status = 0x00000000 ∧ ∀ r : DataReg, t.holds r = false)

/-- From R61 and R202: a poll ends. The schedule is the model's form of LATENCY (log entry 4), and that the core is not starved its form
of R202's fairness (log entry 20). With a command pending and ready, and the host's turns scheduled `n` times first, the poll of
`n + 2` steps sees BUSY = 1 until the perform step and ends with STATUS = 2 read, the command's whole result written and the host's next
operation due. The statement is for every `n`: no delay bounds it. -/
def Obligations.PollEnds : Prop :=
  ∀ (n x : Nat) (op : Op) (s : State) (rest : List HostOp),
    s.firstFault = none → s.pending = some op → s.status = 0x00000001 → s.Ready op → sparseWf s.temps = true →
    s.schedule = List.replicate n .host → s.prog = .poll x :: rest →
    ∃ t u, core.run (n + 2) s = .next t ∧ exec (op.instr (capField s.cmd)) s = .next u ∧
      t.pending = none ∧ t.status = 0x00000002 ∧ t.firstFault = none ∧ t.schedule = [] ∧ t.prog = rest ∧
      t.temp x = 0x00000002 ∧ t.mem = s.mem ∧ t.cmd = s.cmd ∧ ∀ r : DataReg, t.cell r = u.cell r

/-- A final state with nothing scheduled stays as it is. That the idle step is the identity is the model's choice (log entry 12);
that such a state is final is R207's definition, with its 'last access' read as the program's end (DESIGN CHOICE, log entry 31). -/
def Obligations.FinalStateIsIdle : Prop := ∀ s : State, s.final → s.schedule = [] → step s = .next s

/-! ## The host contract -/

/-- `MemWrite(addr, 4, t)` stores the temporary's four bytes, least significant first, and no other byte, register or temporary
changes (R9, R50).
On a busy core, that a store runs is the model's choice (log entry 30). -/
def Obligations.HostStoreFrame : Prop :=
  ∀ (bits a x : Nat) (s : State), s.mem.wf = true →
    ∃ t, hostOp bits (.memWrite a x) s = .next t ∧
      (∀ k < 4, (readByte t.mem (a + k)).toNat = chan (s.temp x) k) ∧
      (∀ b, (b < a ∨ a + 4 ≤ b) → readByte t.mem b = readByte s.mem b) ∧
      t.mem.wf = true ∧ t = { s with mem := t.mem }

/-- From R161 and R162: a call's checks in their order: InvalidDimensions first, then OutOfBounds; a failing call returns its error, writes
no byte and touches no register. On a busy core, that a call's checks run is the model's choice (log entry 30). -/
def Obligations.CallChecks : Prop :=
  ∀ (bits : Nat) (c : Call) (s : State),
    ((c.width = 0 ∨ c.height = 0 ∨ c.width.toNat % 4 ≠ 0 ∨ c.height.toNat % 4 ≠ 0) →
      hostOp bits (.compress c) s =
        .next { s with result := some (.invalidDimensions c.width.toNat c.height.toNat) }) ∧
    (c.width ≠ 0 → c.height ≠ 0 → c.width.toNat % 4 = 0 → c.height.toNat % 4 = 0 →
      c.len < c.width.toNat * c.height.toNat * 4 →
      hostOp bits (.compress c) s =
        .next { s with result := some (.bufferTooShort c.len (c.width.toNat * c.height.toNat * 4)) })

/-- From R170 (what "hold" means is read by the model, log entry 9): a call that passes its checks starts its walk when both buffers fit the host's address width, and is refused when one does
not.
On a busy core, that a call's checks run is the model's choice (log entry 30). -/
def Obligations.CallFitsAddressWidth : Prop :=
  ∀ (bits : Nat) (c : Call) (s : State),
    c.width ≠ 0 → c.height ≠ 0 → c.width.toNat % 4 = 0 → c.height.toNat % 4 = 0 →
    c.width.toNat * c.height.toNat * 4 ≤ c.len →
    (c.src + c.width.toNat * c.height.toNat * 4 < 2 ^ bits ∧
        c.dst + c.width.toNat / 4 * (c.height.toNat / 4) * 8 < 2 ^ bits →
      hostOp bits (.compress c) s = .next { s with result := none, prog := .walk c 0 :: s.prog }) ∧
    (¬ (c.src + c.width.toNat * c.height.toNat * 4 < 2 ^ bits ∧
        c.dst + c.width.toNat / 4 * (c.height.toNat / 4) * 8 < 2 ^ bits) →
      ∃ need, 2 ^ bits ≤ need ∧ hostOp bits (.compress c) s = .refused (.hostAddressWidth need))

/-- From R163 (the walk by block number is the model's, log entry 23): the walk visits the blocks in the nested order: `by` in 0, 4, ..., height-4, and for each `bx` in 0, 4, ..., width-4. -/
def Obligations.WalkOrder : Prop :=
  ∀ c : Call,
    (List.range c.blocks).map (fun k => (c.bx k, c.byRow k)) =
      (List.range (c.height.toNat / 4)).flatMap (fun j => (List.range (c.width.toNat / 4)).map (fun i => (4 * i, 4 * j)))

/-- From R55 and R164: an extraction with all 16 pixels inside the buffer reads them in raster order, number `i` at
`P + ((by + i/4) * width + (bx + i%4)) * 4`, each a word whose four bytes are the four there, the least significant first; as channels they
are R, G, B and A (log entry 18). Every extraction in the walk of a call that passed its checks is such a one. Outside R164's requirement
on `bx` and `by` it speaks of the formulas as they stand (log entry 24). -/
def Obligations.ExtractionReadsTheBlock : Prop :=
  (∀ (c : Call) (m : Memory) (bx byRow : Nat), (∀ i < 16, pixelOffset c bx byRow i + 4 ≤ c.len) →
    ∃ ps, extractBlock c m bx byRow = .ok ps ∧ ps.length = 16 ∧
      ∀ i < 16, ∃ w, ps[i]? = some w ∧ WordAt m (c.src + pixelOffset c bx byRow i) w) ∧
  ∀ (c : Call) (k : Nat), callError c = none → k < c.blocks → ∀ i < 16, pixelOffset c (c.bx k) (c.byRow k) i + 4 ≤ c.len

/-- From R164 and R169: an extraction with a pixel past the buffer's end gives OutOfBounds with the address of the first such pixel. A block
on its own, and a walk, then ends with that result and nothing else changes: that the block's operations are dropped and the program's
next operation follows is read by the model (DEDUCED, log entry 24), and that a block or a walk placed by itself runs without the call's
checks is its choice (log entry 28), and so is that it runs on a busy core too (log entry 30). -/
def Obligations.ExtractionPastTheEnd : Prop :=
  ∀ (bits : Nat) (c : Call) (s : State) (bx byRow i : Nat), i < 16 →
    (∀ j < i, pixelOffset c bx byRow j + 4 ≤ c.len) → c.len < pixelOffset c bx byRow i + 4 →
    extractBlock c s.mem bx byRow = .error (c.src + pixelOffset c bx byRow i) ∧
    hostOp bits (.block c bx byRow) s = .next { s with result := some (.extractPastEnd (c.src + pixelOffset c bx byRow i)) } ∧
    ∀ k < c.blocks, c.bx k = bx → c.byRow k = byRow →
      hostOp bits (.walk c k) s = .next { s with result := some (.extractPastEnd (c.src + pixelOffset c bx byRow i)) }

/-- From R56 and R63: block number `k` of the walk has the output offset `k * 8`; the offsets of the walk's blocks tile the image's length, so
that no two blocks share a byte and every byte has a block. -/
def Obligations.OutputOffsetsTile : Prop :=
  ∀ c : Call,
    (∀ k < c.blocks, ((c.byRow k / 4) * (c.width.toNat / 4) + c.bx k / 4) * 8 = 8 * k ∧
      c.blockOffset (c.bx k) (c.byRow k) = 8 * k) ∧
    c.outLen = 8 * c.blocks

/-- From R165: one block of the walk. The 24 steps are those of the empty schedule, the model's (log entry 4). From an idle core with the walk at block `k` next, 24 steps extract the block, load it, run COMPRESS,
poll and store: the block's eight bytes stand at its offset, every other byte of memory is as it was, and the walk is at the
next block with the core idle. It takes a block's pixels from the memory of that moment, and so says something of an output buffer that
overlaps them too (the model's choice, log entry 26), and of a walk placed by itself for a call that R170 refuses (the model's choice,
log entry 28). -/
def Obligations.OneBlockOfTheWalk : Prop :=
  ∀ (c : Call) (k : Nat) (s : State) (rest : List HostOp), Idle s → callError c = none → k < c.blocks →
    s.prog = .walk c k :: rest →
    ∃ t, core.run 24 s = .next t ∧ Idle t ∧ t.prog = .walk c (k + 1) :: rest ∧ t.result = s.result ∧
      BlockStored c s.mem k t ∧
      ∀ a, (a < c.dst + 8 * k ∨ c.dst + 8 * k + 8 ≤ a) → readByte t.mem a = readByte s.mem a

/-- From R63 and R165: blocks in any order. The operations' step count is that of the empty schedule, the model's (log entry 4). From an
idle core with any list of the call's blocks next, in any order and with repeats, and the output buffer apart from the pixels, each
block's eight bytes end at its offset, compressed from the pixels as they were, and every byte of no listed block is as it was: the
buffer's final contents do not depend on the order. Buffers that overlap, for which the spec gives no outcome, are log entry 26. For
buffers that the host's address width cannot hold it rests on the model's choice that a block on its own is not refused (log entry
28). -/
def Obligations.BlocksInAnyOrder : Prop :=
  ∀ (c : Call) (ks : List Nat) (s : State) (rest : List HostOp), Idle s → callError c = none → (∀ k ∈ ks, k < c.blocks) →
    s.prog = ks.map (fun k => .block c (c.bx k) (c.byRow k)) ++ rest →
    (c.src + c.need ≤ c.dst ∨ c.dst + c.outLen ≤ c.src) →
    ∃ t, core.run (24 * ks.length) s = .next t ∧ Idle t ∧ t.prog = rest ∧
      (∀ k ∈ ks, BlockStored c s.mem k t) ∧
      ∀ a, (∀ k ∈ ks, a < c.dst + 8 * k ∨ c.dst + 8 * k + 8 ≤ a) → readByte t.mem a = readByte s.mem a

/-- From R163, R165 and R166: the whole walk. The step count is that of the empty schedule, the model's (log entry 4). From an idle core with the walk at block 0 next, and the output buffer apart from the
pixels, the walk ends with the image returned: every block's eight bytes stand at its offset, compressed from the pixels as
they were, and no byte outside the output buffer changed. Buffers that overlap, for which the spec gives no outcome, are log entry 26. For buffers that the
host's address width cannot hold it rests on the model's choice that a walk placed by itself is not refused (log entry 28). -/
def Obligations.WalkCompressesTheImage : Prop :=
  ∀ (c : Call) (s : State) (rest : List HostOp), Idle s → callError c = none → s.prog = .walk c 0 :: rest →
    (c.src + c.need ≤ c.dst ∨ c.dst + c.outLen ≤ c.src) →
    ∃ t, core.run (24 * c.blocks + 1) s = .next t ∧ Idle t ∧ t.prog = rest ∧
      t.result = some (.image c.dst (c.width.toNat / 4 * (c.height.toNat / 4) * 8)) ∧
      (∀ k < c.blocks, BlockStored c s.mem k t) ∧
      ∀ a, (a < c.dst ∨ c.dst + c.outLen ≤ a) → readByte t.mem a = readByte s.mem a
end

