-- ==== Sys2Proof/Laws/State.lean ====
section
/-! SUPPORT. One lemma per field per update of State, and per view of the data registers: true by rfl, so that no later proof unfolds
a record update. -/

namespace Sys2Proof.Machine

variable (s : State)

/-! ## put -/

@[simp] theorem State.put_cmd (r : DataReg) (w : Word) : (s.put r w).cmd = s.cmd := rfl
@[simp] theorem State.put_status (r : DataReg) (w : Word) : (s.put r w).status = s.status := rfl
@[simp] theorem State.put_regs (r : DataReg) (w : Word) : (s.put r w).regs = s.regs.set r.slot.val { val := r.stored w, valid := true } r.slot.isLt := rfl
@[simp] theorem State.put_pending (r : DataReg) (w : Word) : (s.put r w).pending = s.pending := rfl
@[simp] theorem State.put_fault (r : DataReg) (w : Word) : (s.put r w).fault = s.fault := rfl
@[simp] theorem State.put_unwritten (r : DataReg) (w : Word) : (s.put r w).unwritten = s.unwritten := rfl
@[simp] theorem State.put_mem (r : DataReg) (w : Word) : (s.put r w).mem = s.mem := rfl
@[simp] theorem State.put_temps (r : DataReg) (w : Word) : (s.put r w).temps = s.temps := rfl
@[simp] theorem State.put_prog (r : DataReg) (w : Word) : (s.put r w).prog = s.prog := rfl
@[simp] theorem State.put_result (r : DataReg) (w : Word) : (s.put r w).result = s.result := rfl
@[simp] theorem State.put_schedule (r : DataReg) (w : Word) : (s.put r w).schedule = s.schedule := rfl
@[simp] theorem State.put_temp (r : DataReg) (w : Word) (x : Nat) : (s.put r w).temp x = s.temp x := rfl

/-! ## storeCmd -/

@[simp] theorem State.storeCmd_cmd (w : Word) : (s.storeCmd w).cmd = w := rfl
@[simp] theorem State.storeCmd_status (w : Word) : (s.storeCmd w).status = s.status := rfl
@[simp] theorem State.storeCmd_regs (w : Word) : (s.storeCmd w).regs = s.regs := rfl
@[simp] theorem State.storeCmd_pending (w : Word) : (s.storeCmd w).pending = s.pending := rfl
@[simp] theorem State.storeCmd_fault (w : Word) : (s.storeCmd w).fault = s.fault := rfl
@[simp] theorem State.storeCmd_unwritten (w : Word) : (s.storeCmd w).unwritten = s.unwritten := rfl
@[simp] theorem State.storeCmd_mem (w : Word) : (s.storeCmd w).mem = s.mem := rfl
@[simp] theorem State.storeCmd_temps (w : Word) : (s.storeCmd w).temps = s.temps := rfl
@[simp] theorem State.storeCmd_prog (w : Word) : (s.storeCmd w).prog = s.prog := rfl
@[simp] theorem State.storeCmd_result (w : Word) : (s.storeCmd w).result = s.result := rfl
@[simp] theorem State.storeCmd_schedule (w : Word) : (s.storeCmd w).schedule = s.schedule := rfl
@[simp] theorem State.storeCmd_cell (w : Word) (q : DataReg) : (s.storeCmd w).cell q = s.cell q := rfl
@[simp] theorem State.storeCmd_value (w : Word) (q : DataReg) : (s.storeCmd w).value q = s.value q := rfl
@[simp] theorem State.storeCmd_holds (w : Word) (q : DataReg) : (s.storeCmd w).holds q = s.holds q := rfl
@[simp] theorem State.storeCmd_pixels (w : Word) : (s.storeCmd w).pixels = s.pixels := rfl
@[simp] theorem State.storeCmd_temp (w : Word) (x : Nat) : (s.storeCmd w).temp x = s.temp x := rfl

/-! ## latch -/

@[simp] theorem State.latch_cmd (op : Op) : (s.latch op).cmd = s.cmd := rfl
@[simp] theorem State.latch_status (op : Op) : (s.latch op).status = statusBusy := rfl
@[simp] theorem State.latch_regs (op : Op) : (s.latch op).regs = s.regs := rfl
@[simp] theorem State.latch_pending (op : Op) : (s.latch op).pending = some op := rfl
@[simp] theorem State.latch_fault (op : Op) : (s.latch op).fault = s.fault := rfl
@[simp] theorem State.latch_unwritten (op : Op) : (s.latch op).unwritten = s.unwritten := rfl
@[simp] theorem State.latch_mem (op : Op) : (s.latch op).mem = s.mem := rfl
@[simp] theorem State.latch_temps (op : Op) : (s.latch op).temps = s.temps := rfl
@[simp] theorem State.latch_prog (op : Op) : (s.latch op).prog = s.prog := rfl
@[simp] theorem State.latch_result (op : Op) : (s.latch op).result = s.result := rfl
@[simp] theorem State.latch_schedule (op : Op) : (s.latch op).schedule = s.schedule := rfl
@[simp] theorem State.latch_cell (op : Op) (q : DataReg) : (s.latch op).cell q = s.cell q := rfl
@[simp] theorem State.latch_value (op : Op) (q : DataReg) : (s.latch op).value q = s.value q := rfl
@[simp] theorem State.latch_holds (op : Op) (q : DataReg) : (s.latch op).holds q = s.holds q := rfl
@[simp] theorem State.latch_pixels (op : Op) : (s.latch op).pixels = s.pixels := rfl
@[simp] theorem State.latch_temp (op : Op) (x : Nat) : (s.latch op).temp x = s.temp x := rfl

/-! ## reject -/

@[simp] theorem State.reject_cmd : (s.reject).cmd = s.cmd := rfl
@[simp] theorem State.reject_status : (s.reject).status = statusIllegal := rfl
@[simp] theorem State.reject_regs : (s.reject).regs = s.regs := rfl
@[simp] theorem State.reject_pending : (s.reject).pending = none := rfl
@[simp] theorem State.reject_fault : (s.reject).fault = s.fault := rfl
@[simp] theorem State.reject_unwritten : (s.reject).unwritten = s.unwritten := rfl
@[simp] theorem State.reject_mem : (s.reject).mem = s.mem := rfl
@[simp] theorem State.reject_temps : (s.reject).temps = s.temps := rfl
@[simp] theorem State.reject_prog : (s.reject).prog = s.prog := rfl
@[simp] theorem State.reject_result : (s.reject).result = s.result := rfl
@[simp] theorem State.reject_schedule : (s.reject).schedule = s.schedule := rfl
@[simp] theorem State.reject_cell (q : DataReg) : (s.reject).cell q = s.cell q := rfl
@[simp] theorem State.reject_value (q : DataReg) : (s.reject).value q = s.value q := rfl
@[simp] theorem State.reject_holds (q : DataReg) : (s.reject).holds q = s.holds q := rfl
@[simp] theorem State.reject_pixels : (s.reject).pixels = s.pixels := rfl
@[simp] theorem State.reject_temp (x : Nat) : (s.reject).temp x = s.temp x := rfl

/-! ## complete -/

@[simp] theorem State.complete_cmd : (s.complete).cmd = s.cmd := rfl
@[simp] theorem State.complete_status : (s.complete).status = statusDone := rfl
@[simp] theorem State.complete_regs : (s.complete).regs = s.regs := rfl
@[simp] theorem State.complete_pending : (s.complete).pending = none := rfl
@[simp] theorem State.complete_fault : (s.complete).fault = s.fault := rfl
@[simp] theorem State.complete_unwritten : (s.complete).unwritten = s.unwritten := rfl
@[simp] theorem State.complete_mem : (s.complete).mem = s.mem := rfl
@[simp] theorem State.complete_temps : (s.complete).temps = s.temps := rfl
@[simp] theorem State.complete_prog : (s.complete).prog = s.prog := rfl
@[simp] theorem State.complete_result : (s.complete).result = s.result := rfl
@[simp] theorem State.complete_schedule : (s.complete).schedule = s.schedule := rfl
@[simp] theorem State.complete_cell (q : DataReg) : (s.complete).cell q = s.cell q := rfl
@[simp] theorem State.complete_value (q : DataReg) : (s.complete).value q = s.value q := rfl
@[simp] theorem State.complete_holds (q : DataReg) : (s.complete).holds q = s.holds q := rfl
@[simp] theorem State.complete_pixels : (s.complete).pixels = s.pixels := rfl
@[simp] theorem State.complete_temp (x : Nat) : (s.complete).temp x = s.temp x := rfl

/-! ## resetCore -/

@[simp] theorem State.resetCore_cmd : (s.resetCore).cmd = 0x00000000 := rfl
@[simp] theorem State.resetCore_status : (s.resetCore).status = statusReset := rfl
@[simp] theorem State.resetCore_regs : (s.resetCore).regs = State.reset.regs := rfl
@[simp] theorem State.resetCore_pending : (s.resetCore).pending = none := rfl
@[simp] theorem State.resetCore_fault : (s.resetCore).fault = s.fault := rfl
@[simp] theorem State.resetCore_unwritten : (s.resetCore).unwritten = s.unwritten := rfl
@[simp] theorem State.resetCore_mem : (s.resetCore).mem = s.mem := rfl
@[simp] theorem State.resetCore_temps : (s.resetCore).temps = s.temps := rfl
@[simp] theorem State.resetCore_prog : (s.resetCore).prog = s.prog := rfl
@[simp] theorem State.resetCore_result : (s.resetCore).result = s.result := rfl
@[simp] theorem State.resetCore_schedule : (s.resetCore).schedule = s.schedule := rfl
@[simp] theorem State.resetCore_temp (x : Nat) : (s.resetCore).temp x = s.temp x := rfl

/-! ## setTemp -/

@[simp] theorem State.setTemp_cmd (a : Nat) (v : Word) : (s.setTemp a v).cmd = s.cmd := rfl
@[simp] theorem State.setTemp_status (a : Nat) (v : Word) : (s.setTemp a v).status = s.status := rfl
@[simp] theorem State.setTemp_regs (a : Nat) (v : Word) : (s.setTemp a v).regs = s.regs := rfl
@[simp] theorem State.setTemp_pending (a : Nat) (v : Word) : (s.setTemp a v).pending = s.pending := rfl
@[simp] theorem State.setTemp_fault (a : Nat) (v : Word) : (s.setTemp a v).fault = s.fault := rfl
@[simp] theorem State.setTemp_unwritten (a : Nat) (v : Word) : (s.setTemp a v).unwritten = s.unwritten := rfl
@[simp] theorem State.setTemp_mem (a : Nat) (v : Word) : (s.setTemp a v).mem = s.mem := rfl
@[simp] theorem State.setTemp_temps (a : Nat) (v : Word) : (s.setTemp a v).temps = sparseSet s.temps a v := rfl
@[simp] theorem State.setTemp_prog (a : Nat) (v : Word) : (s.setTemp a v).prog = s.prog := rfl
@[simp] theorem State.setTemp_result (a : Nat) (v : Word) : (s.setTemp a v).result = s.result := rfl
@[simp] theorem State.setTemp_schedule (a : Nat) (v : Word) : (s.setTemp a v).schedule = s.schedule := rfl
@[simp] theorem State.setTemp_cell (a : Nat) (v : Word) (q : DataReg) : (s.setTemp a v).cell q = s.cell q := rfl
@[simp] theorem State.setTemp_value (a : Nat) (v : Word) (q : DataReg) : (s.setTemp a v).value q = s.value q := rfl
@[simp] theorem State.setTemp_holds (a : Nat) (v : Word) (q : DataReg) : (s.setTemp a v).holds q = s.holds q := rfl
@[simp] theorem State.setTemp_pixels (a : Nat) (v : Word) : (s.setTemp a v).pixels = s.pixels := rfl

/-! ## setMem -/

@[simp] theorem State.setMem_cmd (m : Memory) : (s.setMem m).cmd = s.cmd := rfl
@[simp] theorem State.setMem_status (m : Memory) : (s.setMem m).status = s.status := rfl
@[simp] theorem State.setMem_regs (m : Memory) : (s.setMem m).regs = s.regs := rfl
@[simp] theorem State.setMem_pending (m : Memory) : (s.setMem m).pending = s.pending := rfl
@[simp] theorem State.setMem_fault (m : Memory) : (s.setMem m).fault = s.fault := rfl
@[simp] theorem State.setMem_unwritten (m : Memory) : (s.setMem m).unwritten = s.unwritten := rfl
@[simp] theorem State.setMem_mem (m : Memory) : (s.setMem m).mem = m := rfl
@[simp] theorem State.setMem_temps (m : Memory) : (s.setMem m).temps = s.temps := rfl
@[simp] theorem State.setMem_prog (m : Memory) : (s.setMem m).prog = s.prog := rfl
@[simp] theorem State.setMem_result (m : Memory) : (s.setMem m).result = s.result := rfl
@[simp] theorem State.setMem_schedule (m : Memory) : (s.setMem m).schedule = s.schedule := rfl
@[simp] theorem State.setMem_cell (m : Memory) (q : DataReg) : (s.setMem m).cell q = s.cell q := rfl
@[simp] theorem State.setMem_value (m : Memory) (q : DataReg) : (s.setMem m).value q = s.value q := rfl
@[simp] theorem State.setMem_holds (m : Memory) (q : DataReg) : (s.setMem m).holds q = s.holds q := rfl
@[simp] theorem State.setMem_pixels (m : Memory) : (s.setMem m).pixels = s.pixels := rfl
@[simp] theorem State.setMem_temp (m : Memory) (x : Nat) : (s.setMem m).temp x = s.temp x := rfl

/-! ## pushProg -/

@[simp] theorem State.pushProg_cmd (ops : List HostOp) : (s.pushProg ops).cmd = s.cmd := rfl
@[simp] theorem State.pushProg_status (ops : List HostOp) : (s.pushProg ops).status = s.status := rfl
@[simp] theorem State.pushProg_regs (ops : List HostOp) : (s.pushProg ops).regs = s.regs := rfl
@[simp] theorem State.pushProg_pending (ops : List HostOp) : (s.pushProg ops).pending = s.pending := rfl
@[simp] theorem State.pushProg_fault (ops : List HostOp) : (s.pushProg ops).fault = s.fault := rfl
@[simp] theorem State.pushProg_unwritten (ops : List HostOp) : (s.pushProg ops).unwritten = s.unwritten := rfl
@[simp] theorem State.pushProg_mem (ops : List HostOp) : (s.pushProg ops).mem = s.mem := rfl
@[simp] theorem State.pushProg_temps (ops : List HostOp) : (s.pushProg ops).temps = s.temps := rfl
@[simp] theorem State.pushProg_prog (ops : List HostOp) : (s.pushProg ops).prog = ops ++ s.prog := rfl
@[simp] theorem State.pushProg_result (ops : List HostOp) : (s.pushProg ops).result = s.result := rfl
@[simp] theorem State.pushProg_schedule (ops : List HostOp) : (s.pushProg ops).schedule = s.schedule := rfl
@[simp] theorem State.pushProg_cell (ops : List HostOp) (q : DataReg) : (s.pushProg ops).cell q = s.cell q := rfl
@[simp] theorem State.pushProg_value (ops : List HostOp) (q : DataReg) : (s.pushProg ops).value q = s.value q := rfl
@[simp] theorem State.pushProg_holds (ops : List HostOp) (q : DataReg) : (s.pushProg ops).holds q = s.holds q := rfl
@[simp] theorem State.pushProg_pixels (ops : List HostOp) : (s.pushProg ops).pixels = s.pixels := rfl
@[simp] theorem State.pushProg_temp (ops : List HostOp) (x : Nat) : (s.pushProg ops).temp x = s.temp x := rfl

/-! ## setProg -/

@[simp] theorem State.setProg_cmd (ops : List HostOp) : (s.setProg ops).cmd = s.cmd := rfl
@[simp] theorem State.setProg_status (ops : List HostOp) : (s.setProg ops).status = s.status := rfl
@[simp] theorem State.setProg_regs (ops : List HostOp) : (s.setProg ops).regs = s.regs := rfl
@[simp] theorem State.setProg_pending (ops : List HostOp) : (s.setProg ops).pending = s.pending := rfl
@[simp] theorem State.setProg_fault (ops : List HostOp) : (s.setProg ops).fault = s.fault := rfl
@[simp] theorem State.setProg_unwritten (ops : List HostOp) : (s.setProg ops).unwritten = s.unwritten := rfl
@[simp] theorem State.setProg_mem (ops : List HostOp) : (s.setProg ops).mem = s.mem := rfl
@[simp] theorem State.setProg_temps (ops : List HostOp) : (s.setProg ops).temps = s.temps := rfl
@[simp] theorem State.setProg_prog (ops : List HostOp) : (s.setProg ops).prog = ops := rfl
@[simp] theorem State.setProg_result (ops : List HostOp) : (s.setProg ops).result = s.result := rfl
@[simp] theorem State.setProg_schedule (ops : List HostOp) : (s.setProg ops).schedule = s.schedule := rfl
@[simp] theorem State.setProg_cell (ops : List HostOp) (q : DataReg) : (s.setProg ops).cell q = s.cell q := rfl
@[simp] theorem State.setProg_value (ops : List HostOp) (q : DataReg) : (s.setProg ops).value q = s.value q := rfl
@[simp] theorem State.setProg_holds (ops : List HostOp) (q : DataReg) : (s.setProg ops).holds q = s.holds q := rfl
@[simp] theorem State.setProg_pixels (ops : List HostOp) : (s.setProg ops).pixels = s.pixels := rfl
@[simp] theorem State.setProg_temp (ops : List HostOp) (x : Nat) : (s.setProg ops).temp x = s.temp x := rfl

/-! ## setResult -/

@[simp] theorem State.setResult_cmd (v : Option CallResult) : (s.setResult v).cmd = s.cmd := rfl
@[simp] theorem State.setResult_status (v : Option CallResult) : (s.setResult v).status = s.status := rfl
@[simp] theorem State.setResult_regs (v : Option CallResult) : (s.setResult v).regs = s.regs := rfl
@[simp] theorem State.setResult_pending (v : Option CallResult) : (s.setResult v).pending = s.pending := rfl
@[simp] theorem State.setResult_fault (v : Option CallResult) : (s.setResult v).fault = s.fault := rfl
@[simp] theorem State.setResult_unwritten (v : Option CallResult) : (s.setResult v).unwritten = s.unwritten := rfl
@[simp] theorem State.setResult_mem (v : Option CallResult) : (s.setResult v).mem = s.mem := rfl
@[simp] theorem State.setResult_temps (v : Option CallResult) : (s.setResult v).temps = s.temps := rfl
@[simp] theorem State.setResult_prog (v : Option CallResult) : (s.setResult v).prog = s.prog := rfl
@[simp] theorem State.setResult_result (v : Option CallResult) : (s.setResult v).result = v := rfl
@[simp] theorem State.setResult_schedule (v : Option CallResult) : (s.setResult v).schedule = s.schedule := rfl
@[simp] theorem State.setResult_cell (v : Option CallResult) (q : DataReg) : (s.setResult v).cell q = s.cell q := rfl
@[simp] theorem State.setResult_value (v : Option CallResult) (q : DataReg) : (s.setResult v).value q = s.value q := rfl
@[simp] theorem State.setResult_holds (v : Option CallResult) (q : DataReg) : (s.setResult v).holds q = s.holds q := rfl
@[simp] theorem State.setResult_pixels (v : Option CallResult) : (s.setResult v).pixels = s.pixels := rfl
@[simp] theorem State.setResult_temp (v : Option CallResult) (x : Nat) : (s.setResult v).temp x = s.temp x := rfl

/-! ## setSchedule -/

@[simp] theorem State.setSchedule_cmd (a : List Agent) : (s.setSchedule a).cmd = s.cmd := rfl
@[simp] theorem State.setSchedule_status (a : List Agent) : (s.setSchedule a).status = s.status := rfl
@[simp] theorem State.setSchedule_regs (a : List Agent) : (s.setSchedule a).regs = s.regs := rfl
@[simp] theorem State.setSchedule_pending (a : List Agent) : (s.setSchedule a).pending = s.pending := rfl
@[simp] theorem State.setSchedule_fault (a : List Agent) : (s.setSchedule a).fault = s.fault := rfl
@[simp] theorem State.setSchedule_unwritten (a : List Agent) : (s.setSchedule a).unwritten = s.unwritten := rfl
@[simp] theorem State.setSchedule_mem (a : List Agent) : (s.setSchedule a).mem = s.mem := rfl
@[simp] theorem State.setSchedule_temps (a : List Agent) : (s.setSchedule a).temps = s.temps := rfl
@[simp] theorem State.setSchedule_prog (a : List Agent) : (s.setSchedule a).prog = s.prog := rfl
@[simp] theorem State.setSchedule_result (a : List Agent) : (s.setSchedule a).result = s.result := rfl
@[simp] theorem State.setSchedule_schedule (a : List Agent) : (s.setSchedule a).schedule = a := rfl
@[simp] theorem State.setSchedule_cell (a : List Agent) (q : DataReg) : (s.setSchedule a).cell q = s.cell q := rfl
@[simp] theorem State.setSchedule_value (a : List Agent) (q : DataReg) : (s.setSchedule a).value q = s.value q := rfl
@[simp] theorem State.setSchedule_holds (a : List Agent) (q : DataReg) : (s.setSchedule a).holds q = s.holds q := rfl
@[simp] theorem State.setSchedule_pixels (a : List Agent) : (s.setSchedule a).pixels = s.pixels := rfl
@[simp] theorem State.setSchedule_temp (a : List Agent) (x : Nat) : (s.setSchedule a).temp x = s.temp x := rfl

/-! ## recordFault -/

@[simp] theorem State.recordFault_cmd (x : Fault) : (s.recordFault x).cmd = s.cmd := by
  unfold State.recordFault; split <;> rfl
@[simp] theorem State.recordFault_status (x : Fault) : (s.recordFault x).status = s.status := by
  unfold State.recordFault; split <;> rfl
@[simp] theorem State.recordFault_regs (x : Fault) : (s.recordFault x).regs = s.regs := by
  unfold State.recordFault; split <;> rfl
@[simp] theorem State.recordFault_pending (x : Fault) : (s.recordFault x).pending = s.pending := by
  unfold State.recordFault; split <;> rfl
@[simp] theorem State.recordFault_unwritten (x : Fault) : (s.recordFault x).unwritten = s.unwritten := by
  unfold State.recordFault; split <;> rfl
@[simp] theorem State.recordFault_mem (x : Fault) : (s.recordFault x).mem = s.mem := by
  unfold State.recordFault; split <;> rfl
@[simp] theorem State.recordFault_temps (x : Fault) : (s.recordFault x).temps = s.temps := by
  unfold State.recordFault; split <;> rfl
@[simp] theorem State.recordFault_prog (x : Fault) : (s.recordFault x).prog = s.prog := by
  unfold State.recordFault; split <;> rfl
@[simp] theorem State.recordFault_result (x : Fault) : (s.recordFault x).result = s.result := by
  unfold State.recordFault; split <;> rfl
@[simp] theorem State.recordFault_schedule (x : Fault) : (s.recordFault x).schedule = s.schedule := by
  unfold State.recordFault; split <;> rfl
@[simp] theorem State.recordFault_cell (x : Fault) (q : DataReg) : (s.recordFault x).cell q = s.cell q := by
  unfold State.recordFault; split <;> rfl
@[simp] theorem State.recordFault_value (x : Fault) (q : DataReg) : (s.recordFault x).value q = s.value q := by
  unfold State.recordFault; split <;> rfl
@[simp] theorem State.recordFault_holds (x : Fault) (q : DataReg) : (s.recordFault x).holds q = s.holds q := by
  unfold State.recordFault; split <;> rfl

/-- The first model fault is the one kept (R27). -/
theorem State.recordFault_first (x : Fault) (h : s.fault = none) : s.recordFault x = { s with fault := some x } := by
  simp [State.recordFault, h]

/-- A fault mark is never replaced (R27). -/
theorem State.recordFault_again (x y : Fault) (h : s.fault = some y) : s.recordFault x = s := by
  simp [State.recordFault, h]

/-! ## note -/

@[simp] theorem State.note_cmd (u : Unwritten) : (s.note u).cmd = s.cmd := by
  unfold State.note; split <;> rfl
@[simp] theorem State.note_status (u : Unwritten) : (s.note u).status = s.status := by
  unfold State.note; split <;> rfl
@[simp] theorem State.note_regs (u : Unwritten) : (s.note u).regs = s.regs := by
  unfold State.note; split <;> rfl
@[simp] theorem State.note_pending (u : Unwritten) : (s.note u).pending = s.pending := by
  unfold State.note; split <;> rfl
@[simp] theorem State.note_fault (u : Unwritten) : (s.note u).fault = s.fault := by
  unfold State.note; split <;> rfl
@[simp] theorem State.note_mem (u : Unwritten) : (s.note u).mem = s.mem := by
  unfold State.note; split <;> rfl
@[simp] theorem State.note_temps (u : Unwritten) : (s.note u).temps = s.temps := by
  unfold State.note; split <;> rfl
@[simp] theorem State.note_prog (u : Unwritten) : (s.note u).prog = s.prog := by
  unfold State.note; split <;> rfl
@[simp] theorem State.note_result (u : Unwritten) : (s.note u).result = s.result := by
  unfold State.note; split <;> rfl
@[simp] theorem State.note_schedule (u : Unwritten) : (s.note u).schedule = s.schedule := by
  unfold State.note; split <;> rfl
@[simp] theorem State.note_cell (u : Unwritten) (q : DataReg) : (s.note u).cell q = s.cell q := by
  unfold State.note; split <;> rfl
@[simp] theorem State.note_value (u : Unwritten) (q : DataReg) : (s.note u).value q = s.value q := by
  unfold State.note; split <;> rfl
@[simp] theorem State.note_holds (u : Unwritten) (q : DataReg) : (s.note u).holds q = s.holds q := by
  unfold State.note; split <;> rfl

/-- Unwritten is recorded when no model fault was raised before (R27). -/
theorem State.note_first (u : Unwritten) (h : s.firstFault = none) : s.note u = { s with unwritten := some u } := by
  simp [State.note, h]

/-- The first model fault is the one kept (R27). -/
theorem State.note_again (u : Unwritten) (h : s.firstFault ≠ none) : s.note u = s := by
  unfold State.note; split
  · rfl
  · contradiction

/-- FAULT is none exactly when neither of its two fields stands. -/
theorem State.firstFault_eq_none : s.firstFault = none ↔ s.unwritten = none ∧ s.fault = none := by
  unfold State.firstFault; split <;> simp [*]

/-- Recording BusError or HostProtocol replaces nothing (R27). -/
theorem State.recordFault_firstFault (x : Fault) (m : Unwritten ⊕ Fault) (h : s.firstFault = some m) :
    (s.recordFault x).firstFault = some m := by
  unfold State.firstFault at *
  rw [State.recordFault_unwritten]
  split at h
  · exact h
  · cases hf : s.fault with
    | none => rw [hf] at h; cases h
    | some y => rw [State.recordFault_again _ _ y hf]; exact h

end Sys2Proof.Machine
end

