-- ==== Sys2Proof/Laws/Registers.lean ====
section
/-! SUPPORT. The register map and the register file: what a write changes and what it leaves, and what an operation's list of writes
does. -/

namespace Sys2Proof.Machine

/-- No two names share storage (R30). -/
theorem DataReg.slot_injective (r q : DataReg) (h : r.slot = q.slot) : r = q := by
  rw [Fin.ext_iff] at h
  cases r <;> cases q <;> simp [DataReg.slot] at h ⊢ <;> omega

/-- The list of data registers is complete. -/
theorem mem_dataRegs (r : DataReg) : r ∈ dataRegs := by
  cases r <;> simp [dataRegs, pixRegs, palRegs]

/-- The list of registers is complete. -/
theorem mem_allRegs (r : Reg) : r ∈ allRegs := by
  cases r <;> simp [allRegs, mem_dataRegs]

/-- Each register answers at its own offset (R21). -/
theorem regAt_offset (r : Reg) : regAt r.offset = some r := by
  have all : ∀ q ∈ allRegs, regAt q.offset = some q := by decide
  exact all r (mem_allRegs r)

/-- A register found at an offset has that offset. -/
theorem offset_of_regAt (off : BitVec 8) (r : Reg) (h : regAt off = some r) : r.offset = off := by
  have := List.find?_some h
  simpa using this

/-- A register's offset is a multiple of 4. -/
theorem offset_aligned (r : Reg) : r.offset.toNat % 4 = 0 := by
  have all : ∀ q ∈ allRegs, q.offset.toNat % 4 = 0 := by decide
  exact all r (mem_allRegs r)

/-- Storing is idempotent: reserved bits stay clear (R22, R32). -/
@[simp] theorem DataReg.stored_stored (r : DataReg) (w : Word) : r.stored (r.stored w) = r.stored w := by
  unfold DataReg.stored
  split
  · rw [BitVec.and_assoc, BitVec.and_self]
  · rfl

/-- An RGB888 word has no reserved bits to lose (R22). -/
@[simp] theorem DataReg.stored_rgbWord (r : DataReg) (c : Rgb) : r.stored (rgbWord c) = rgbWord c := by
  have h : rgbWord c &&& 0x00FFFFFF#32 = rgbWord c := by
    apply BitVec.eq_of_toNat_eq
    have hlt : (rgbWord c).toNat < 2 ^ 24 := by
      simp only [rgbWord, BitVec.toNat_append, BitVec.toNat_ofNat]
      have := c.r.isLt; have := c.g.isLt; have := c.b.isLt
      rw [Nat.shiftLeft_eq, Nat.shiftLeft_eq, Nat.shiftLeft_eq, ← Nat.shiftLeft_eq, ← Nat.shiftLeft_eq, ← Nat.shiftLeft_eq]
      simp only [Nat.zero_mod, Nat.zero_shiftLeft, Nat.zero_or]
      refine Nat.or_lt_two_pow ?_ (by omega)
      rw [Nat.shiftLeft_eq]
      have : (c.b.toNat <<< 8 ||| c.g.toNat) < 2 ^ 16 := by
        refine Nat.or_lt_two_pow ?_ (by omega)
        rw [Nat.shiftLeft_eq]; omega
      omega
    rw [BitVec.toNat_and]
    exact Nat.and_two_pow_sub_one_of_lt_two_pow hlt
  unfold DataReg.stored
  split
  · exact h
  · rfl

/-- The bits of an RGB888 word (R22). -/
theorem rgbWord_getLsbD (c : Rgb) (i : Nat) :
    (rgbWord c).getLsbD i =
      if i < 8 then c.r.getLsbD i else if i < 16 then c.g.getLsbD (i - 8)
      else if i < 24 then c.b.getLsbD (i - 16) else false := by
  change BitVec.getLsbD (w := 8 + 8 + 8 + 8) (0#8 ++ c.b ++ c.g ++ c.r) i = _
  simp only [BitVec.getLsbD_append, BitVec.getLsbD_zero]
  repeat' split
  all_goals first | rfl | omega

/-- The bytes of an RGB888 word: R, G, B, 0 (R22). -/
theorem byteOf_rgbWord (c : Rgb) :
    byteOf (rgbWord c) 0 = c.r ∧ byteOf (rgbWord c) 1 = c.g ∧ byteOf (rgbWord c) 2 = c.b ∧ byteOf (rgbWord c) 3 = 0 := by
  refine ⟨?_, ?_, ?_, ?_⟩ <;> ext i hi <;>
    rw [← BitVec.getLsbD_eq_getElem, byteOf, BitVec.getLsbD_extractLsb', rgbWord_getLsbD]
  · simp [hi, ← BitVec.getLsbD_eq_getElem]
  · rw [if_neg (by omega), if_pos (by omega)]; simp [hi]
  · rw [if_neg (by omega), if_neg (by omega), if_pos (by omega)]; simp [hi]
  · rw [if_neg (by omega), if_neg (by omega), if_neg (by omega)]; simp

/-- The colour of an RGB888 word is the triple it was made of (R22). -/
@[simp] theorem rgbOfWord_rgbWord (c : Rgb) : rgbOfWord (rgbWord c) = c := by
  obtain ⟨h0, h1, h2, -⟩ := byteOf_rgbWord c
  exact congr (congr (congrArg Rgb.mk h0) h1) h2

/-! ## The register file -/

/-- A write changes its own register and no other. -/
theorem State.put_cell (s : State) (r q : DataReg) (w : Word) :
    (s.put r w).cell q = if q = r then { val := r.stored w, valid := true } else s.cell q := by
  unfold State.cell State.put
  simp only [Vector.get_eq_getElem, Vector.getElem_set]
  by_cases h : q = r
  · subst h; simp
  · rw [if_neg, if_neg h]
    intro hs
    exact h (DataReg.slot_injective r q (Fin.ext hs)).symm

@[simp] theorem State.put_value_self (s : State) (r : DataReg) (w : Word) : (s.put r w).value r = r.stored w := by
  simp [State.value, State.put_cell]

@[simp] theorem State.put_holds_self (s : State) (r : DataReg) (w : Word) : (s.put r w).holds r = true := by
  simp [State.holds, State.put_cell]

theorem State.put_cell_other (s : State) {r q : DataReg} (w : Word) (h : q ≠ r) : (s.put r w).cell q = s.cell q := by
  rw [State.put_cell, if_neg h]

/-- A list of writes leaves every register it does not name. -/
theorem State.putAll_cell_other (ws : List (DataReg × Word)) (s : State) (q : DataReg) (h : q ∉ ws.map Prod.fst) :
    (s.putAll ws).cell q = s.cell q := by
  induction ws generalizing s with
  | nil => rfl
  | cons w rest ih =>
    simp only [List.map_cons, List.mem_cons, not_or] at h
    show ((s.put w.1 w.2).putAll rest).cell q = s.cell q
    rw [ih _ h.2, State.put_cell_other _ _ h.1]

/-- A list of writes that names no register twice leaves each named register with its word. -/
theorem State.putAll_cell_of_mem (ws : List (DataReg × Word)) (s : State) (q : DataReg) (w : Word)
    (hn : (ws.map Prod.fst).Nodup) (hm : (q, w) ∈ ws) :
    (s.putAll ws).cell q = { val := q.stored w, valid := true } := by
  induction ws generalizing s with
  | nil => cases hm
  | cons x rest ih =>
    simp only [List.map_cons, List.nodup_cons] at hn
    show ((s.put x.1 x.2).putAll rest).cell q = _
    rcases List.mem_cons.mp hm with h | h
    · subst h
      rw [State.putAll_cell_other _ _ _ hn.1, State.put_cell, if_pos rfl]
    · exact ih _ hn.2 h

/-- What a list of writes changes: the register file only. -/
theorem State.putAll_fields (ws : List (DataReg × Word)) (s : State) :
    (s.putAll ws).cmd = s.cmd ∧ (s.putAll ws).status = s.status ∧ (s.putAll ws).pending = s.pending ∧
    (s.putAll ws).fault = s.fault ∧ (s.putAll ws).unwritten = s.unwritten ∧ (s.putAll ws).mem = s.mem ∧ (s.putAll ws).temps = s.temps ∧
    (s.putAll ws).prog = s.prog ∧ (s.putAll ws).result = s.result ∧ (s.putAll ws).schedule = s.schedule := by
  induction ws generalizing s with
  | nil => exact ⟨rfl, rfl, rfl, rfl, rfl, rfl, rfl, rfl, rfl, rfl⟩
  | cons x rest ih => exact ih (s.put x.1 x.2)

/-- After reset no register holds a value (R35). -/
@[simp] theorem reset_holds (r : DataReg) : State.reset.holds r = false := by
  simp [State.holds, State.cell, State.reset, Vector.get_eq_getElem]

/-- After a reset event every valid bit is clear, and a data register stores what it stores after power-on (R35, R200). -/
@[simp] theorem State.resetCore_cell (s : State) (r : DataReg) : s.resetCore.cell r = { val := 0, valid := false } := by
  simp [State.cell, State.resetCore, State.reset, Vector.get_eq_getElem]

end Sys2Proof.Machine
end

