-- ==== Sys2Proof/Laws/Perform.lean ====
section
/-! SUPPORT. What a perform step can do (spec/40_command.md R92 to R94): the one inversion lemma, the equation when every operand holds a
value, and the frame. -/

namespace Sys2Proof.Machine

/-- What each operation writes. -/
def opResults : Op → State → List (DataReg × Word)
  | .compress => compressResults
  | .bbox => bboxResults
  | .quant => quantResults
  | .palette => paletteResults
  | .classify => classifyResults
  | .serialize => serializeResults

/-- The meaning of a legal command is its perform step, whatever its capability bit (R24, R92). -/
theorem exec_instr (op : Op) (cap : Bool) (s : State) : exec (op.instr cap) s = perform op (opResults op) s := by
  cases op <;> rfl

/-- An operation writes exactly its write set, in the table's order (R28). -/
theorem opResults_regs (op : Op) (s : State) : (opResults op s).map Prod.fst = opWrites op := by
  cases op <;> rfl

/-- No register is written twice. -/
theorem opWrites_nodup (op : Op) : (opWrites op).Nodup := by
  cases op <;> decide

/-- No operand is missing exactly when every one holds a value. -/
theorem firstMissing_eq_none (s : State) (rs : List DataReg) :
    s.firstMissing rs = none ↔ ∀ r ∈ rs, s.holds r = true := by
  simp [State.firstMissing]

/-- The state a completed operation leaves. -/
def afterPerform (op : Op) (s : State) : State := (s.putAll (opResults op s)).complete

/-- With every operand valid the operation completes (R92). -/
theorem perform_ready (op : Op) (s : State) (h : s.Ready op) : perform op (opResults op) s = .next (afterPerform op s) := by
  unfold perform
  rw [(firstMissing_eq_none s _).mpr h]
  rfl

/-- A perform step ends in one of two ways (R92, R93). -/
theorem perform_cases (op : Op) (s : State) :
    (s.Ready op ∧ perform op (opResults op) s = .next (afterPerform op s)) ∨
    (¬ s.Ready op ∧ ∃ r, s.firstMissing (opReads op) = some r ∧ perform op (opResults op) s = .next (s.note (.operand op r))) := by
  by_cases h : s.Ready op
  · exact .inl ⟨h, perform_ready op s h⟩
  · cases hm : s.firstMissing (opReads op) with
    | none => exact absurd ((firstMissing_eq_none s _).mp hm) h
    | some r => exact .inr ⟨h, r, rfl, by simp [perform, raiseFault, hm]⟩

/-- The next state of a perform step is the completed one, or only sets FAULT (R92 to R94). -/
theorem perform_next (op : Op) (s t : State) (h : perform op (opResults op) s = .next t) :
    (s.Ready op ∧ t = afterPerform op s) ∨ ∃ r, t = s.note (.operand op r) := by
  rcases perform_cases op s with ⟨hr, he⟩ | ⟨-, r, -, he⟩ <;> rw [he] at h <;> cases h
  · exact .inl ⟨hr, rfl⟩
  · exact .inr ⟨r, rfl⟩

/-- With every operand valid the next state is the completed one (R92). -/
theorem perform_next_ready (op : Op) (s t : State) (hr : s.Ready op) (h : perform op (opResults op) s = .next t) :
    t = afterPerform op s := by
  rw [perform_ready op s hr] at h; exact (Host.Outcome.next.inj h).symm

/-- A perform step always answers a next state (R92, R93). -/
theorem perform_answers (op : Op) (s : State) : ∃ t, perform op (opResults op) s = .next t := by
  rcases perform_cases op s with ⟨-, he⟩ | ⟨-, r, -, he⟩ <;> exact ⟨_, he⟩

/-- FAULT is part of what `SameOutside` keeps (R27). -/
theorem State.SameOutside.firstFault {s t : State} (h : State.SameOutside s t) : t.firstFault = s.firstFault := by
  simp only [State.firstFault, h.unwritten, h.fault]

/-- A completed operation leaves everything outside its write set, STATUS and PENDING (R28). -/
theorem afterPerform_frame (op : Op) (s : State) : State.PerformFrame op s (afterPerform op s) := by
  obtain ⟨hc, -, -, hf, hu, hm, ht, hp, hr, hs⟩ := State.putAll_fields (opResults op s) s
  refine ⟨hc, ⟨hf, hu, hm, ht, hp, hr, hs⟩, fun r hn => ?_⟩
  exact State.putAll_cell_other _ _ _ (by rw [opResults_regs]; exact hn)

/-- A register of the write set holds the operation's word (R92). -/
theorem afterPerform_cell (op : Op) (s : State) (r : DataReg) (w : Word) (h : (r, w) ∈ opResults op s) :
    (afterPerform op s).cell r = { val := r.stored w, valid := true } :=
  State.putAll_cell_of_mem _ _ _ _ (by rw [opResults_regs]; exact opWrites_nodup op) h

theorem afterPerform_value (op : Op) (s : State) (r : DataReg) (w : Word) (h : (r, w) ∈ opResults op s) :
    (afterPerform op s).value r = r.stored w := by
  simp [State.value, afterPerform_cell op s r w h]

/-- A completed operation has nothing pending, STATUS = DONE and a value in its whole write set (R92). -/
theorem afterPerform_completed (op : Op) (s : State) : State.Completed op (afterPerform op s) := by
  refine ⟨rfl, show statusDone = 0x00000002 from by decide, fun r hr => ?_⟩
  rw [← opResults_regs op s] at hr
  obtain ⟨⟨q, w⟩, hm, rfl⟩ := List.mem_map.mp hr
  simp [State.holds, afterPerform_cell op s q w hm]

end Sys2Proof.Machine
end

