-- ==== Sys2Proof/Laws/Arithmetic.lean ====
section
/-! SUPPORT. What the arithmetic of the six operations computes, on naturals and bit fields, one lemma per shared function, and what an
operation's results depend on. -/

namespace Sys2Proof.Machine

/-! ## Quantizer -/

/-- `pack565` is the three truncated fields side by side (R100). -/
theorem pack565_eq (c : Rgb) : pack565 c = c.r.extractLsb' 3 5 ++ c.g.extractLsb' 2 6 ++ c.b.extractLsb' 3 5 := by
  apply BitVec.eq_of_toNat_eq
  have hr := c.r.isLt; have hg := c.g.isLt; have hb := c.b.isLt
  show (pack565 c).toNat = BitVec.toNat (w := 5 + 6 + 5) (c.r.extractLsb' 3 5 ++ c.g.extractLsb' 2 6 ++ c.b.extractLsb' 3 5)
  simp only [pack565, BitVec.toNat_ofNat, BitVec.toNat_append, BitVec.extractLsb'_toNat, Nat.shiftRight_eq_div_pow]
  have e1 : c.r.toNat / 2^3 % 2^5 = c.r.toNat / 2^3 := by omega
  have e2 : c.g.toNat / 2^2 % 2^6 = c.g.toNat / 2^2 := by omega
  have e3 : c.b.toNat / 2^3 % 2^5 = c.b.toNat / 2^3 := by omega
  rw [e1, e2, e3]
  have s1 : ((c.r.toNat / 2^3) <<< 6 ||| c.g.toNat / 2^2) <<< 5 = (c.r.toNat / 2^3) <<< 11 ||| (c.g.toNat/2^2) <<< 5 := by
    rw [Nat.shiftLeft_or_distrib, ← Nat.shiftLeft_add]
  rw [s1]
  apply Nat.mod_eq_of_lt
  apply Nat.or_lt_two_pow
  · apply Nat.or_lt_two_pow <;> rw [Nat.shiftLeft_eq] <;> omega
  · omega

/-- The re-expanded red channel (R101). -/
theorem unpack565_r (p : Endpoint) : (unpack565 p).r.toNat = p.toNat / 2048 * 8 + p.toNat / 2048 / 4 := by
  have hp := p.isLt
  have h := (show ∀ x < 32, (x <<< 3 ||| x >>> 2) % 256 = x * 8 + x / 4 by decide) (p.toNat / 2048 % 32) (by omega)
  simp only [unpack565, r5Of, BitVec.extractLsb'_toNat, BitVec.toNat_ofNat, Nat.shiftRight_eq_div_pow p.toNat, Nat.reducePow]
  rw [h]; omega

/-- The re-expanded green channel (R101). -/
theorem unpack565_g (p : Endpoint) : (unpack565 p).g.toNat = p.toNat / 32 % 64 * 4 + p.toNat / 32 % 64 / 16 := by
  have h := (show ∀ x < 64, (x <<< 2 ||| x >>> 4) % 256 = x * 4 + x / 16 by decide) (p.toNat / 32 % 64) (by omega)
  simp only [unpack565, g6Of, BitVec.extractLsb'_toNat, BitVec.toNat_ofNat, Nat.shiftRight_eq_div_pow p.toNat, Nat.reducePow]
  rw [h]

/-- The re-expanded blue channel (R101). -/
theorem unpack565_b (p : Endpoint) : (unpack565 p).b.toNat = p.toNat % 32 * 8 + p.toNat % 32 / 4 := by
  have h := (show ∀ x < 32, (x <<< 3 ||| x >>> 2) % 256 = x * 8 + x / 4 by decide) (p.toNat % 32) (by omega)
  simp only [unpack565, b5Of, BitVec.extractLsb'_toNat, BitVec.toNat_ofNat, Nat.shiftRight_eq_div_pow p.toNat, Nat.reducePow, Nat.div_one]
  rw [h]

/-- The endpoint word's low half (R22). -/
@[simp] theorem ep0Of_epWord (a b : Endpoint) : ep0Of (epWord a b) = a := by
  apply BitVec.eq_of_toNat_eq
  have e : (epWord a b).toNat = b.toNat * 65536 + a.toNat := by
    show BitVec.toNat (w := 16+16) (b ++ a) = _
    have := a.isLt
    rw [BitVec.toNat_append, ← Nat.shiftLeft_add_eq_or_of_lt a.isLt, Nat.shiftLeft_eq]
  have := a.isLt
  simp [ep0Of, BitVec.extractLsb'_toNat, e]; omega

/-- The endpoint word's high half (R22). -/
@[simp] theorem ep1Of_epWord (a b : Endpoint) : ep1Of (epWord a b) = b := by
  apply BitVec.eq_of_toNat_eq
  have e : (epWord a b).toNat = b.toNat * 65536 + a.toNat := by
    show BitVec.toNat (w := 16+16) (b ++ a) = _
    have := a.isLt
    rw [BitVec.toNat_append, ← Nat.shiftLeft_add_eq_or_of_lt a.isLt, Nat.shiftLeft_eq]
  have := a.isLt
  have := b.isLt
  simp [ep1Of, BitVec.extractLsb'_toNat, e, Nat.shiftRight_eq_div_pow]; omega

/-- An endpoint word is its two halves (R22). -/
@[simp] theorem epWord_halves (w : Word) : epWord (ep0Of w) (ep1Of w) = w := by
  apply BitVec.eq_of_toNat_eq
  show BitVec.toNat (w := 16 + 16) (ep1Of w ++ ep0Of w) = _
  have := w.isLt
  rw [BitVec.toNat_append]
  simp only [ep0Of, ep1Of, BitVec.extractLsb'_toNat, Nat.shiftRight_eq_div_pow]
  rw [← Nat.shiftLeft_add_eq_or_of_lt (by omega), Nat.shiftLeft_eq]; omega

/-! ## Inset -/

/-- The running minimum is a lower bound that is reached (R110). -/
theorem foldMin_spec (ch : Rgb → Byte) (ps : List Rgb) (m : Nat) :
    (ps.foldl (fun m p => min m (ch p).toNat) m ≤ m) ∧ (∀ p ∈ ps, ps.foldl (fun m p => min m (ch p).toNat) m ≤ (ch p).toNat) ∧
    (ps.foldl (fun m p => min m (ch p).toNat) m = m ∨ ∃ p ∈ ps, ps.foldl (fun m p => min m (ch p).toNat) m = (ch p).toNat) := by
  induction ps generalizing m with
  | nil => simp
  | cons p ps ih =>
    obtain ⟨h1, h2, h3⟩ := ih (min m (ch p).toNat)
    simp only [List.foldl_cons, List.mem_cons, forall_eq_or_imp, exists_eq_or_imp]
    refine ⟨by omega, ⟨by omega, h2⟩, ?_⟩
    rcases h3 with h3 | h3
    · rcases Nat.le_total m (ch p).toNat with hm | hm
      · left; omega
      · right; left; omega
    · right; right; exact h3

/-- The running maximum is an upper bound that is reached (R110). -/
theorem foldMax_spec (ch : Rgb → Byte) (ps : List Rgb) (m : Nat) :
    (m ≤ ps.foldl (fun m p => max m (ch p).toNat) m) ∧ (∀ p ∈ ps, (ch p).toNat ≤ ps.foldl (fun m p => max m (ch p).toNat) m) ∧
    (ps.foldl (fun m p => max m (ch p).toNat) m = m ∨ ∃ p ∈ ps, ps.foldl (fun m p => max m (ch p).toNat) m = (ch p).toNat) := by
  induction ps generalizing m with
  | nil => simp
  | cons p ps ih =>
    obtain ⟨h1, h2, h3⟩ := ih (max m (ch p).toNat)
    simp only [List.foldl_cons, List.mem_cons, forall_eq_or_imp, exists_eq_or_imp]
    refine ⟨by omega, ⟨by omega, h2⟩, ?_⟩
    rcases h3 with h3 | h3
    · rcases Nat.le_total m (ch p).toNat with hm | hm
      · right; left; omega
      · left; omega
    · right; right; exact h3

/-- The block's pixels are the colours of the pixel registers (R22). -/
theorem mem_pixels (s : State) (p : Rgb) : p ∈ s.pixels ↔ ∃ i, rgbOfWord (s.value (.pix i)) = p := by
  simp [State.pixels, pixRegs]

/-! ## Palette -/

/-- The reciprocal constant (R121). -/
theorem reciprocalK_eq : reciprocalK = 21846 := by decide

/-- An interpolated channel (R121, R124). -/
theorem twoThirds_toNat (a b : Byte) : (twoThirds a b).toNat = min ((2 * a.toNat + b.toNat) * 21846 / 65536) 255 := by
  have ha := a.isLt; have hb := b.isLt
  simp only [twoThirds, reciprocalMul3, BitVec.toNat_ofNat, reciprocalK_eq, Nat.shiftRight_eq_div_pow]
  rw [Nat.mod_eq_of_lt (a := 2 * a.toNat + b.toNat) (by omega)]
  omega

/-! ## Classifier -/

/-- The packed sum of the codes has two bits for each (R73). -/
theorem indexSum_lt (cs : List IndexCode) : indexSum cs < 4 ^ cs.length := by
  induction cs with
  | nil => simp [indexSum]
  | cons c cs ih =>
    have := c.isLt
    simp only [indexSum, List.length_cons, Nat.pow_succ, Nat.shiftLeft_eq]; omega

/-- Code `i` of the packed sum (R73). -/
theorem indexSum_code (cs : List IndexCode) (i : Nat) (hi : i < cs.length) : indexSum cs / 4 ^ i % 4 = (cs[i]).toNat := by
  induction cs generalizing i with
  | nil => simp at hi
  | cons c cs ih =>
    have hc := c.isLt
    cases i with
    | zero => simp only [indexSum, Nat.shiftLeft_eq]; simp; omega
    | succ i =>
      have := ih i (by simpa using hi)
      simp only [indexSum, Nat.shiftLeft_eq, List.getElem_cons_succ]
      rw [show 4 ^ (i+1) = 4 * 4 ^ i from by rw [Nat.pow_succ, Nat.mul_comm], ← Nat.div_div_eq_div_mul, ← this]
      congr 2; omega

/-- Code `i` of an index word of 16 codes (R73). -/
theorem packIndices_code (cs : List IndexCode) (h : cs.length = 16) (i : Nat) (hi : i < 16) :
    (packIndices cs).toNat / 4 ^ i % 4 = (cs[i]).toNat := by
  have hlt := indexSum_lt cs
  rw [h] at hlt
  unfold packIndices
  rw [BitVec.toNat_ofNat, Nat.mod_eq_of_lt (lt_of_lt_of_le hlt (by decide)), indexSum_code]

/-- Code `i` of a classified block is the index of pixel `i` (R136, R137). -/
theorem classifyWord_code (pal : Palette) (s : State) (i : Fin 16) :
    (classifyWord pal s.pixels).toNat / 4 ^ i.val % 4 = (indexOf pal (rgbOfWord (s.value (.pix i)))).toNat := by
  unfold classifyWord
  rw [packIndices_code _ (by simp [State.pixels, pixRegs]) i.val i.isLt]
  simp [State.pixels, pixRegs]

/-! ## What results depend on -/

/-- Equal cells have equal values. -/
theorem State.value_congr {s t : State} {r : DataReg} (h : t.cell r = s.cell r) : t.value r = s.value r := by simp [State.value, h]

/-- No operation changes the pixels (R28). -/
theorem afterPerform_pixels (op : Op) (s : State) : (afterPerform op s).pixels = s.pixels := by
  unfold State.pixels
  refine List.map_congr_left fun r hr => ?_
  obtain ⟨i, -, rfl⟩ := List.mem_map.mp hr
  rw [State.value_congr ((afterPerform_frame op s).regs (.pix i) (by cases op <;> simp [opWrites, palRegs]))]

/-- An operation's results depend on the colours of the pixels and the values of the other operands only (R28, R95, R111). -/
theorem opResults_congr (op : Op) (s s' : State) (h : ∀ r ∈ opReads op, rgbOfWord (s.value r) = rgbOfWord (s'.value r)) (h2 : ∀ r ∈ opReads op, (∀ i, r ≠ .pix i) → s.value r = s'.value r) : opResults op s = opResults op s' := by
  have px : pixRegs ⊆ opReads op → s.pixels = s'.pixels := by
    intro hs
    simp only [State.pixels]
    exact List.map_congr_left fun r hr => h r (hs hr)
  have v : ∀ r ∈ opReads op, (∀ i, r ≠ .pix i) → s.value r = s'.value r := h2
  cases op with
  | compress => simp only [opResults, compressResults, px (by simp [opReads])]
  | bbox => simp only [opResults, bboxResults, px (by simp [opReads])]
  | quant => simp only [opResults, quantResults, v .minc (by simp [opReads]) (by simp), v .maxc (by simp [opReads]) (by simp)]
  | palette => simp only [opResults, paletteResults, v .ep (by simp [opReads]) (by simp)]
  | serialize => simp only [opResults, serializeResults, v .ep (by simp [opReads]) (by simp), v .idxw (by simp [opReads]) (by simp)]
  | classify =>
    have p : ∀ k, s.value (.pal k) = s'.value (.pal k) := fun k => v (.pal k) (by simp [opReads, palRegs]) (by simp)
    simp only [opResults, classifyResults, px (by simp [opReads]), State.hostPalette, p]

/-- Equal results leave equal registers (R92). -/
theorem afterPerform_congr (op : Op) (s s' : State) (h : opResults op s = opResults op s') : ∀ r ∈ opWrites op, (afterPerform op s).cell r = (afterPerform op s').cell r := by
  intro r hr
  rw [← opResults_regs op s] at hr
  obtain ⟨⟨q, w⟩, hm, rfl⟩ := List.mem_map.mp hr
  rw [afterPerform_cell op s q w hm, afterPerform_cell op s' q w (h ▸ hm)]

end Sys2Proof.Machine
end

