-- ==== Sys2Proof/Laws/Bus.lean ====
section
/-! SUPPORT. What a bus access can do (spec/20_memory.md R52) and what a CMD write does (spec/40_command.md R90, R91). -/

namespace Sys2Proof.Machine

/-- An access passes the checks exactly when it is 32 bits wide, at a register's offset, and not barred by BUSY (R52). -/
theorem checkAccess_ok (kind : AccessKind) (off : BitVec 8) (size : Nat) (s : State) (r : Reg) :
    checkAccess kind off size s = .ok r ↔
      size = 4 ∧ regAt off = some r ∧ (s.busy = true → kind = .read ∧ r = .status) := by
  unfold checkAccess
  split
  · rename_i h
    constructor
    · intro hc; cases hc
    · rintro ⟨hs, hr, -⟩
      have ha := offset_aligned r
      rw [offset_of_regAt off r hr] at ha
      omega
  · rename_i h
    simp only [not_or, ne_eq, Decidable.not_not] at h
    cases hr : regAt off with
    | none => simp
    | some q =>
      simp only
      split
      · rename_i hb
        constructor
        · intro hc; cases hc
        · rintro ⟨-, hq, hn⟩
          cases hq
          exact absurd (hn hb.1) hb.2
      · rename_i hb
        constructor
        · intro hc
          cases hc
          exact ⟨h.1, rfl, fun hbusy => by by_contra hn; exact hb ⟨hbusy, hn⟩⟩
        · rintro ⟨-, hq, -⟩
          cases hq
          rfl

/-- Decoding a word to an operation, in terms of the decoder. -/
theorem decodeOp_ok (w : Word) (i : Instr) (h : decode w = .ok i) : decodeOp w = i.op? := by
  simp [decodeOp, h]

/-- A CMD write latches a legal command and rejects an illegal one, at once (R90, R91). -/
theorem issue_eq (w : Word) (s : State) :
    issue w s =
      match decodeOp w with
      | some op => .next ((s.storeCmd w).latch op)
      | none => .next (s.storeCmd w).reject := by
  unfold issue decodeOp
  cases decode w with
  | error e => rfl
  | ok i => cases i <;> rfl

/-- A write that passed the checks ends in one of four ways (R33, R52, R90, R91). -/
theorem writeReg_cases (r : Reg) (v : Word) (s : State) :
    (r.readOnly = true ∧ writeReg r v s = .next s) ∨
    (r = .cmd ∧ ∃ op, decodeOp v = some op ∧ writeReg r v s = .next ((s.storeCmd v).latch op)) ∨
    (r = .cmd ∧ decodeOp v = none ∧ writeReg r v s = .next (s.storeCmd v).reject) ∨
    (∃ d, r = .data d ∧ r.readOnly = false ∧ writeReg r v s = .next (s.put d v)) := by
  unfold writeReg
  cases hro : r.readOnly with
  | true => exact .inl ⟨rfl, rfl⟩
  | false =>
    right
    cases r with
    | cmd =>
      simp only [issue_eq]
      cases hd : decodeOp v with
      | some op => exact .inl ⟨trivial, op, rfl, rfl⟩
      | none => exact .inr (.inl ⟨trivial, rfl, rfl⟩)
    | status => cases hro
    | data d => exact .inr (.inr ⟨d, rfl, rfl, rfl⟩)

/-- A bus write faults, or is one of the writes of `writeReg_cases` on an idle core (R52). -/
theorem busWrite_cases (off : BitVec 8) (size : Nat) (v : Word) (s : State) :
    (∃ f, busWrite off size v s = .fault f) ∨
    (s.busy = false ∧ ∃ r, regAt off = some r ∧ busWrite off size v s = writeReg r v s) := by
  unfold busWrite
  cases hc : checkAccess .write off size s with
  | error f => exact .inl ⟨f, rfl⟩
  | ok r =>
    right
    obtain ⟨-, hr, hb⟩ := (checkAccess_ok _ _ _ _ _).mp hc
    refine ⟨?_, r, hr, rfl⟩
    cases hbusy : s.busy with
    | false => rfl
    | true => exact absurd (hb hbusy).1 (by decide)

end Sys2Proof.Machine
end

