-- ==== Sys2Proof/Laws/Memory.lean ====
section
/-! SUPPORT. Sparse storage: a read after a write, and the canonical form kept by every write. -/

namespace Sys2Proof.Machine

variable {n : Nat}

/-- Below the bound of a canonical list nothing is listed. -/
theorem sparseGet_below (l : Sparse n) (lo a : Nat) (h : sparseWfFrom lo l = true) (ha : a < lo) : sparseGet l a = 0#n := by
  induction l generalizing lo with
  | nil => rfl
  | cons kv rest ih =>
    obtain ⟨k, v⟩ := kv
    simp only [sparseWfFrom, Bool.and_eq_true, decide_eq_true_eq] at h
    simp only [sparseGet]
    rw [if_neg (by omega)]
    exact ih (k + 1) h.2 (by omega)

/-- A read after a write, from a list in canonical form. -/
theorem sparseGet_sparseSet (l : Sparse n) (lo a b : Nat) (x : BitVec n) (h : sparseWfFrom lo l = true) :
    sparseGet (sparseSet l a x) b = if b = a then x else sparseGet l b := by
  induction l generalizing lo with
  | nil =>
    by_cases hb : b = a
    · subst hb
      by_cases hx : x = 0#n <;> simp [sparseSet, sparseGet, hx]
    · by_cases hx : x = 0#n <;> simp [sparseSet, sparseGet, hx, hb, Ne.symm hb]

  | cons kv rest ih =>
    obtain ⟨k, v⟩ := kv
    simp only [sparseWfFrom, Bool.and_eq_true, decide_eq_true_eq] at h
    have hrest := ih (k + 1) h.2
    have hlow := fun c => sparseGet_below rest (k + 1) c h.2
    simp only [sparseSet]
    split
    · by_cases hx : x = 0#n
      · by_cases hb : b = a
        · subst hb; rw [if_pos hx, if_pos rfl, sparseGet, if_neg (by omega), hlow b (by omega), hx]
        · rw [if_pos hx, if_neg hb]
      · rw [if_neg hx, sparseGet]
        by_cases hb : b = a <;> simp [hb, eq_comm]
        intro hab; exact absurd hab.symm hb
    · split
      · rename_i hak
        subst hak
        by_cases hx : x = 0#n
        · by_cases hb : b = a
          · subst hb; rw [if_pos hx, if_pos rfl, hlow b (by omega), hx]
          · rw [if_pos hx, if_neg hb, sparseGet, if_neg (Ne.symm hb)]
        · rw [if_neg hx, sparseGet, sparseGet]
          by_cases hb : b = a
          · simp [hb]
          · simp [hb, Ne.symm hb]
      · rw [sparseGet, sparseGet, hrest]
        by_cases hk : k = b
        · subst hk; simp; intro hka; omega
        · simp [hk]

/-- A write keeps the canonical form, at any bound the key respects. -/
theorem sparseSet_wfFrom (l : Sparse n) (lo a : Nat) (x : BitVec n) (h : sparseWfFrom lo l = true) (ha : lo ≤ a) :
    sparseWfFrom lo (sparseSet l a x) = true := by
  induction l generalizing lo with
  | nil => by_cases hx : x = 0#n <;> simp [sparseSet, sparseWfFrom, hx, ha]
  | cons kv rest ih =>
    obtain ⟨k, v⟩ := kv
    simp only [sparseWfFrom, Bool.and_eq_true, decide_eq_true_eq] at h
    obtain ⟨⟨hk, hv⟩, hr⟩ := h
    have weaken : ∀ lo', lo' ≤ k + 1 → sparseWfFrom lo' rest = true := by
      intro lo' hlo
      cases rest with
      | nil => rfl
      | cons kv' rest' =>
        simp only [sparseWfFrom, Bool.and_eq_true, decide_eq_true_eq] at hr ⊢
        exact ⟨⟨by omega, hr.1.2⟩, hr.2⟩
    simp only [sparseSet]
    split
    · by_cases hx : x = 0#n
      · simp [hx, sparseWfFrom, hk, hv, hr]
      · have hak : a + 1 ≤ k := by omega
        simp [hx, sparseWfFrom, hv, hr, ha, hak]
    · split
      · by_cases hx : x = 0#n
        · simpa [hx] using weaken lo (by omega)
        · rename_i hak
          subst hak
          simp [hx, sparseWfFrom, ha, hr]
      · have := ih (k + 1) hr (by omega)
        simp [sparseWfFrom, hk, hv, this]

/-- A write keeps the canonical form. -/
theorem sparseSet_wf (l : Sparse n) (a : Nat) (x : BitVec n) (h : sparseWf l = true) : sparseWf (sparseSet l a x) = true :=
  sparseSet_wfFrom l 0 a x h (Nat.zero_le a)

/-- A read of a key after a write under any key. -/
theorem sparseGet_set (l : Sparse n) (a b : Nat) (x : BitVec n) (h : sparseWf l = true) :
    sparseGet (sparseSet l a x) b = if b = a then x else sparseGet l b :=
  sparseGet_sparseSet l 0 a b x h

/-! ## Host memory -/

/-- A byte write keeps memory canonical. -/
theorem writeByte_wf (m : Memory) (a : Nat) (v : Byte) (h : m.wf = true) : (writeByte m a v).wf = true :=
  sparseSet_wf m a v h

/-- A byte read after a byte write. -/
theorem readByte_writeByte (m : Memory) (a b : Nat) (v : Byte) (h : m.wf = true) :
    readByte (writeByte m a v) b = if b = a then v else readByte m b :=
  sparseGet_set m a b v h

/-- A word write keeps memory canonical. -/
theorem writeWord_wf (m : Memory) (a : Nat) (w : Word) (h : m.wf = true) : (writeWord m a w).wf = true := by
  unfold writeWord
  exact writeByte_wf _ _ _ (writeByte_wf _ _ _ (writeByte_wf _ _ _ (writeByte_wf _ _ _ h)))

/-- A byte read after a word write: the word's bytes, least significant first, and every other byte as before (R9). -/
theorem readByte_writeWord (m : Memory) (a b : Nat) (w : Word) (h : m.wf = true) :
    readByte (writeWord m a w) b = if a ≤ b ∧ b < a + 4 then byteOf w (b - a) else readByte m b := by
  have h1 := writeByte_wf m a (byteOf w 0) h
  have h2 := writeByte_wf _ (a + 1) (byteOf w 1) h1
  have h3 := writeByte_wf _ (a + 2) (byteOf w 2) h2
  unfold writeWord
  rw [readByte_writeByte _ _ _ _ h3, readByte_writeByte _ _ _ _ h2, readByte_writeByte _ _ _ _ h1,
    readByte_writeByte _ _ _ _ h]
  by_cases hb : a ≤ b ∧ b < a + 4
  · obtain ⟨k, rfl⟩ := Nat.exists_eq_add_of_le hb.1
    have hk : k = 0 ∨ k = 1 ∨ k = 2 ∨ k = 3 := by omega
    rcases hk with rfl | rfl | rfl | rfl <;> simp
  · rw [if_neg hb, if_neg (by omega), if_neg (by omega), if_neg (by omega), if_neg (by omega)]

/-- The bytes of a word read are the bytes in memory, the least significant at the address (R9). -/
theorem byteOf_readWord (m : Memory) (a k : Nat) (hk : k < 4) : byteOf (readWord m a) k = readByte m (a + k) := by
  have hk' : k = 0 ∨ k = 1 ∨ k = 2 ∨ k = 3 := by omega
  apply BitVec.eq_of_getLsbD_eq
  intro i hi
  rcases hk' with rfl | rfl | rfl | rfl <;>
    simp only [byteOf, readWord, BitVec.getLsbD_extractLsb', BitVec.getLsbD_append, hi, decide_true, Bool.true_and]
  · simp [hi]
  · simp [hi, show ¬ 8 + i < 8 by omega]
  · simp [hi, show ¬ 16 + i < 8 by omega, show 16 + i - 8 = 8 + i by omega, show ¬ 8 + i < 8 by omega]
  · simp [show ¬ 24 + i < 8 by omega, show 24 + i - 8 = 16 + i by omega, show ¬ 16 + i < 8 by omega,
      show 16 + i - 8 = 8 + i by omega]

end Sys2Proof.Machine
end

