-- ==== Sys2Proof/Laws/Step.lean ====
section
/-! SUPPORT. What a step can do, said once: a predicate closed under the machine's primitive moves is kept by every step. -/

namespace Sys2Proof.Machine

/-- `P` is kept by each move a step is made of: the host's own bookkeeping, a host write of a register, issue, rejection, perform,
reset and the fault mark. -/
structure StepClosed (P : State → Prop) : Prop where
  fault : ∀ s f, P s → P (s.recordFault f)
  note : ∀ s u, P s → P (s.note u)
  schedule : ∀ s a, P s → P (s.setSchedule a)
  prog : ∀ s l, P s → P (s.setProg l)
  temp : ∀ s a v, P s → P (s.setTemp a v)
  mem : ∀ s a w, P s → P (s.setMem (writeWord s.mem a w))
  result : ∀ s r, P s → P (s.setResult r)
  put : ∀ s d w, P s → s.busy = false → (Reg.data d).readOnly = false → P (s.put d w)
  latch : ∀ s w op, P s → s.busy = false → decodeOp w = some op → P ((s.storeCmd w).latch op)
  reject : ∀ s w, P s → s.busy = false → decodeOp w = none → P (s.storeCmd w).reject
  perform : ∀ s op, P s → s.pending = some op → s.Ready op → P (afterPerform op s)
  reset : ∀ s, P s → P s.resetCore

variable {P : State → Prop}

/-- Pushing operations is replacing the program. -/
theorem StepClosed.pushProg (hP : StepClosed P) (s : State) (ops : List HostOp) (h : P s) : P (s.pushProg ops) :=
  hP.prog s (ops ++ s.prog) h

theorem StepClosed.raiseFault (hP : StepClosed P) (m : Unwritten ⊕ Fault) (s t : State) (h : P s) (ht : raiseFault m s = .next t) :
    P t := by
  cases m <;> cases ht
  exact hP.note s _ h

theorem StepClosed.writeReg (hP : StepClosed P) (r : Reg) (v : Word) (s t : State) (h : P s) (hb : s.busy = false)
    (ht : writeReg r v s = .next t) : P t := by
  rcases writeReg_cases r v s with ⟨-, he⟩ | ⟨-, op, hd, he⟩ | ⟨-, hd, he⟩ | ⟨d, rfl, hro, he⟩ <;>
    rw [he] at ht <;> cases ht
  · exact h
  · exact hP.latch s v op h hb hd
  · exact hP.reject s v h hb hd
  · exact hP.put s d v h hb hro

theorem StepClosed.busWrite (hP : StepClosed P) (off : BitVec 8) (size : Nat) (v : Word) (s t : State) (h : P s)
    (ht : busWrite off size v s = .next t) : P t := by
  rcases busWrite_cases off size v s with ⟨f, he⟩ | ⟨hb, r, -, he⟩ <;> rw [he] at ht
  · cases ht
  · exact hP.writeReg r v s t h hb ht

theorem StepClosed.compressOne (hP : StepClosed P) (c : Call) (bx byRow : Nat) (more : List HostOp) (s t : State) (h : P s)
    (ht : compressOne c bx byRow more s = .next t) : P t := by
  simp only [Machine.compressOne] at ht
  split at ht <;> cases ht
  · exact hP.result _ _ h
  · exact hP.pushProg _ _ h

theorem StepClosed.hostOp (hP : StepClosed P) (bits : Nat) (op : HostOp) (s t : State) (h : P s)
    (ht : hostOp bits op s = .next t) : P t := by
  cases op with
  | wr off size v => exact hP.busWrite off size v s t h ht
  | wrTemp off size x => exact hP.busWrite off size (s.temp x) s t h ht
  | rd off size x =>
    simp only [Machine.hostOp, readInto] at ht
    split at ht
    · exact hP.raiseFault _ s t h ht
    · cases ht; exact hP.temp _ _ _ h
  | poll x =>
    simp only [Machine.hostOp, pollOnce] at ht
    split at ht
    · exact hP.raiseFault _ s t h ht
    · split at ht <;> cases ht
      · exact hP.pushProg _ _ (hP.temp _ _ _ h)
      · exact hP.temp _ _ _ h
  | memWrite a x =>
    simp only [Machine.hostOp] at ht
    cases ht
    exact hP.mem _ _ _ h
  | compress c =>
    simp only [Machine.hostOp, startCall] at ht
    split at ht
    · cases ht; exact hP.result _ _ h
    · split at ht <;> cases ht
      exact hP.pushProg _ _ (hP.result _ _ h)
  | block c bx byRow => exact hP.compressOne c bx byRow [] s t h ht
  | walk c k =>
    simp only [Machine.hostOp, continueWalk] at ht
    split at ht
    · exact hP.compressOne c _ _ _ s t h ht
    · cases ht; exact hP.result _ _ h

theorem StepClosed.agentTurn (hP : StepClosed P) (bits : Nat) (a : Agent) (s t : State) (h : P s)
    (ht : agentTurn bits a s = .next t) : P t := by
  cases a with
  | host =>
    simp only [Machine.agentTurn, hostTurn] at ht
    split at ht
    · cases ht; exact h
    · exact hP.hostOp bits _ _ t (hP.prog _ _ h) ht
  | core =>
    simp only [Machine.agentTurn, coreTurn] at ht
    cases hp : s.pending with
    | none => rw [hp] at ht; cases ht; exact h
    | some op =>
      rw [hp] at ht
      simp only [exec_instr] at ht
      rcases perform_next op s t ht with ⟨hr, rfl⟩ | ⟨r, rfl⟩
      · exact hP.perform s op h hp hr
      · exact hP.note s _ h
  | reset => cases ht; exact hP.reset s h

theorem StepClosed.takeTurn (hP : StepClosed P) (bits : Nat) (s t : State) (h : P s) (ht : takeTurn bits s = .next t) : P t := by
  unfold Machine.takeTurn at ht
  split at ht
  · exact hP.agentTurn bits _ s t h ht
  · exact hP.agentTurn bits _ _ t (hP.schedule _ _ h) ht

/-- Every step keeps a closed predicate, for every address width of the host. -/
theorem StepClosed.machineStep (hP : StepClosed P) (bits : Nat) (s t : State) (h : P s) (ht : machineStep bits s = .next t) :
    P t := by
  unfold Machine.machineStep at ht
  split at ht
  · cases ht
  split at ht
  · cases ht; exact h
  · cases hT : Machine.takeTurn bits s with
    | next u =>
      rw [hT] at ht
      cases ht
      exact hP.takeTurn bits s t h hT
    | fault f =>
      rw [hT] at ht
      cases ht
      exact hP.fault s f h
    | refused r => rw [hT] at ht; cases ht

/-- Every step keeps a closed predicate. -/
theorem StepClosed.step (hP : StepClosed P) (s t : State) (h : P s) (ht : step s = .next t) : P t :=
  hP.machineStep Config.hostAddrBits s t h ht

/-- With BusError or HostProtocol in FAULT the machine goes no further (R27). -/
theorem machineStep_faulted (bits : Nat) (s : State) (f : Fault) (h : s.fault = some f) : machineStep bits s = .fault f := by
  simp [Machine.machineStep, h]

/-- With Unwritten in FAULT the state is terminal: it stays as it is (R9, R10, R27). -/
theorem machineStep_unwritten (bits : Nat) (s : State) (u : Unwritten) (hf : s.fault = none) (h : s.unwritten = some u) :
    machineStep bits s = .next s := by
  simp [Machine.machineStep, hf, h]

/-- A pending command's turn is its meaning (R92). -/
theorem coreTurn_pending (s : State) (op : Op) (h : s.pending = some op) :
    coreTurn s = perform op (opResults op) s := by
  simp only [coreTurn, h, exec_instr]

end Sys2Proof.Machine
end

