-- ==== Sys2Proof/Laws/Host.lean ====
section
/-! SUPPORT. What one operation of the host can do, what a step leaves of the core, runs of several steps, and the extraction of a
block (spec/47_host_image.md R161 to R165). -/

namespace Sys2Proof.Machine

/-- An access at a register's offset passes the checks of an idle core (R52). -/
theorem checkAccess_idle (kind : AccessKind) (s : State) (hb : s.busy = false) (r : Reg) :
    checkAccess kind r.offset 4 s = .ok r :=
  (checkAccess_ok _ _ _ _ _).mpr ⟨rfl, regAt_offset r, by simp [hb]⟩

/-- A read of STATUS passes on every state (R52). -/
theorem busRead_status (s : State) : busRead (Reg.offset .status) 4 s = .ok (statusRead s.status) := by
  have : checkAccess .read (Reg.offset .status) 4 s = .ok .status := (checkAccess_ok _ _ _ _ _).mpr ⟨rfl, regAt_offset _, fun _ => ⟨rfl, rfl⟩⟩
  simp [busRead, this, State.readReg]

/-- A poll that reads BUSY = 1 polls again (R81). -/
theorem pollOnce_busy (x : Nat) (s : State) (h : s.status = 0x00000001) :
    pollOnce x s = .next ((s.setTemp x 1).pushProg [.poll x]) := by
  simp [pollOnce, busRead_status, h, statusRead, busyBit]

/-- A poll that reads DONE ends (R81). -/
theorem pollOnce_done (x : Nat) (s : State) (h : s.status = 0x00000002) : pollOnce x s = .next (s.setTemp x 2) := by
  simp [pollOnce, busRead_status, h, statusRead, busyBit]

/-- `wr` of a register the host may write (R52, R81). -/
theorem hostOp_wr (bits : Nat) (s : State) (hb : s.busy = false) (r : DataReg) (hro : (Reg.data r).readOnly = false) (v : Word) :
    hostOp bits (wrOp (.data r) v) s = .next (s.put r v) := by
  simp [hostOp, wrOp, busWrite, checkAccess_idle .write s hb (.data r), writeReg, hro]

/-- `wr` of a temporary writes the temporary's value (R52, R81). -/
theorem hostOp_wrTemp (bits : Nat) (s : State) (hb : s.busy = false) (r : DataReg) (hro : (Reg.data r).readOnly = false) (x : Nat) :
    hostOp bits (wrTempOp (.data r) x) s = .next (s.put r (s.temp x)) :=
  hostOp_wr bits s hb r hro (s.temp x)

/-- `rd` of a register that holds a value (R52, R81). -/
theorem hostOp_rd (bits : Nat) (s : State) (hb : s.busy = false) (r : DataReg) (hv : s.holds r = true) (x : Nat) :
    hostOp bits (rdOp (.data r) x) s = .next (s.setTemp x (s.value r)) := by
  simp [hostOp, rdOp, readInto, busRead, checkAccess_idle .read s hb (.data r), State.readReg, hv]

/-- `rd` of a register without a value sets FAULT and writes no temporary (R52, R81). -/
theorem hostOp_rd_unwritten (bits : Nat) (s : State) (hb : s.busy = false) (r : DataReg) (hv : s.holds r = false) (x : Nat) :
    hostOp bits (rdOp (.data r) x) s = .next (s.note (.read (Reg.data r).offset)) := by
  simp [hostOp, rdOp, readInto, busRead, checkAccess_idle .read s hb (.data r), State.readReg, hv, raiseFault]

/-- A raised fault that is a next state sets FAULT only. -/
theorem raiseFault_next (m : Unwritten ⊕ Fault) (s t : State) (h : raiseFault m s = .next t) : ∃ u, t = s.note u := by
  cases m <;> cases h
  exact ⟨_, rfl⟩

/-- An operation of the host leaves the core as it was, or is a write that passed the checks of an idle core. -/
theorem hostOp_cases (bits : Nat) (op : HostOp) (s t : State) (h : hostOp bits op s = .next t) :
    (t.cmd = s.cmd ∧ t.status = s.status ∧ t.pending = s.pending ∧ t.regs = s.regs) ∨
    (s.busy = false ∧ ∃ r v, writeReg r v s = .next t) := by
  cases op with
  | wr off size v =>
    rcases busWrite_cases off size v s with ⟨f, he⟩ | ⟨hb, r, -, he⟩ <;> simp only [hostOp] at h <;> rw [he] at h
    · cases h
    · exact .inr ⟨hb, r, v, h⟩
  | wrTemp off size x =>
    rcases busWrite_cases off size (s.temp x) s with ⟨f, he⟩ | ⟨hb, r, -, he⟩ <;> simp only [hostOp] at h <;> rw [he] at h
    · cases h
    · exact .inr ⟨hb, r, _, h⟩
  | rd off size x =>
    simp only [hostOp, readInto] at h; split at h
    · obtain ⟨u, rfl⟩ := raiseFault_next _ _ _ h; exact .inl ⟨by simp, by simp, by simp, by simp⟩
    · cases h; exact .inl ⟨rfl, rfl, rfl, rfl⟩
  | poll x =>
    simp only [hostOp, pollOnce] at h; split at h
    · obtain ⟨u, rfl⟩ := raiseFault_next _ _ _ h; exact .inl ⟨by simp, by simp, by simp, by simp⟩
    · split at h <;> cases h <;> exact .inl ⟨rfl, rfl, rfl, rfl⟩
  | memWrite a x => cases h; exact .inl ⟨rfl, rfl, rfl, rfl⟩
  | compress c =>
    simp only [hostOp, startCall] at h; split at h
    · cases h; exact .inl ⟨rfl, rfl, rfl, rfl⟩
    · split at h <;> cases h; exact .inl ⟨rfl, rfl, rfl, rfl⟩
  | block c bx byRow =>
    simp only [hostOp, compressOne] at h; split at h <;> cases h <;> exact .inl ⟨rfl, rfl, rfl, rfl⟩
  | walk c k =>
    simp only [hostOp, continueWalk, compressOne] at h; split at h
    · split at h <;> cases h <;> exact .inl ⟨rfl, rfl, rfl, rfl⟩
    · cases h; exact .inl ⟨rfl, rfl, rfl, rfl⟩

/-- The core's own state is the same, FAULT aside. -/
structure SameCore (s u : State) : Prop where
  cmd : u.cmd = s.cmd
  status : u.status = s.status
  pending : u.pending = s.pending
  regs : u.regs = s.regs

/-- A step leaves the core as it was, or is a host write to an idle core, or a perform step, or a reset. -/
theorem step_cases (s t : State) (h : step s = .next t) :
    SameCore s t ∨ (∃ u, SameCore s u ∧ s.busy = false ∧ ∃ r v, writeReg r v u = .next t) ∨
    (∃ u op, SameCore s u ∧ u.pending = some op ∧ u.Ready op ∧ t = afterPerform op u) ∨ (∃ u, SameCore s u ∧ t = u.resetCore) := by
  have ag : ∀ a (u : State), SameCore s u → agentTurn Config.hostAddrBits a u = .next t →
    SameCore s t ∨ (∃ u, SameCore s u ∧ s.busy = false ∧ ∃ r v, writeReg r v u = .next t) ∨
    (∃ u op, SameCore s u ∧ u.pending = some op ∧ u.Ready op ∧ t = afterPerform op u) ∨ (∃ u, SameCore s u ∧ t = u.resetCore) := by
    intro a u hu hh
    cases a with
    | reset => cases hh; exact .inr (.inr (.inr ⟨u, hu, rfl⟩))
    | core =>
      simp only [agentTurn, coreTurn] at hh
      split at hh
      · cases hh; exact .inl hu
      · rename_i op hp
        rw [exec_instr] at hh
        rcases perform_next _ _ _ hh with ⟨hr, rfl⟩ | ⟨r, rfl⟩
        · exact .inr (.inr (.inl ⟨u, op, hu, hp, hr, rfl⟩))
        · exact .inl ⟨by simp [hu.1], by simp [hu.2], by simp [hu.3], by simp [hu.4]⟩
    | host =>
      simp only [agentTurn, hostTurn] at hh
      split at hh
      · cases hh; exact .inl hu
      · rename_i op rest hp
        have hu' : SameCore s (u.setProg rest) := ⟨hu.1, hu.2, hu.3, hu.4⟩
        rcases hostOp_cases _ _ _ _ hh with ⟨h1, h2, h3, h4⟩ | ⟨hb, r, v, hw⟩
        · exact .inl ⟨h1.trans hu.1, h2.trans hu.2, h3.trans hu.3, h4.trans hu.4⟩
        · refine .inr (.inl ⟨_, hu', ?_, r, v, hw⟩)
          have : (u.setProg rest).busy = s.busy := by simp [State.busy, hu.2]
          rw [← this]; exact hb
  unfold step machineStep at h
  split at h
  · cases h
  split at h
  · cases h; exact .inl ⟨rfl, rfl, rfl, rfl⟩
  · cases hT : takeTurn Config.hostAddrBits s with
    | refused r => rw [hT] at h; cases h
    | fault f => rw [hT] at h; cases h; exact .inl ⟨by simp, by simp, by simp, by simp⟩
    | next u =>
      rw [hT] at h; cases h
      unfold takeTurn at hT
      split at hT
      · exact ag _ s ⟨rfl, rfl, rfl, rfl⟩ hT
      · rename_i a rest _; exact ag _ (s.setSchedule rest) ⟨rfl, rfl, rfl, rfl⟩ hT

/-- A step without a fault mark is an agent's turn. -/
theorem machineStep_noFault (bits : Nat) (s : State) (h : s.firstFault = none) :
    machineStep bits s = absorbFault s (takeTurn bits s) := by
  obtain ⟨hu, hf⟩ := s.firstFault_eq_none.mp h
  unfold machineStep; rw [hf, hu]

/-- `t` has `s`'s FAULT, or is `s`, up to the operation and the turn taken, with Unwritten noted (R27, R93). -/
def MarkKeptOrNoted (s t : State) : Prop :=
  t.fault = s.fault ∧ (t.unwritten = s.unwritten ∨ ∃ u prog sched, t = ((s.setProg prog).setSchedule sched).note u)

theorem MarkKeptOrNoted.kept {s t : State} (hf : t.fault = s.fault) (hu : t.unwritten = s.unwritten) : MarkKeptOrNoted s t :=
  ⟨hf, .inl hu⟩

theorem MarkKeptOrNoted.noted (s : State) (u : Unwritten) : MarkKeptOrNoted s (s.note u) :=
  ⟨by simp, .inr ⟨u, s.prog, s.schedule, rfl⟩⟩

theorem MarkKeptOrNoted.setProg {s t : State} {l : List HostOp} (h : MarkKeptOrNoted (s.setProg l) t) : MarkKeptOrNoted s t := by
  obtain ⟨hf, hu | ⟨u, p, a, rfl⟩⟩ := h
  · exact ⟨hf, .inl hu⟩
  · exact ⟨hf, .inr ⟨u, p, a, rfl⟩⟩

theorem MarkKeptOrNoted.setSchedule {s t : State} {l : List Agent} (h : MarkKeptOrNoted (s.setSchedule l) t) : MarkKeptOrNoted s t := by
  obtain ⟨hf, hu | ⟨u, p, a, rfl⟩⟩ := h
  · exact ⟨hf, .inl hu⟩
  · exact ⟨hf, .inr ⟨u, p, a, rfl⟩⟩

/-- What an operation of the host that answers a next state does to FAULT. -/
theorem hostOp_mark (bits : Nat) (op : HostOp) (s t : State) (h : hostOp bits op s = .next t) : MarkKeptOrNoted s t := by
  have wr : ∀ off size v, busWrite off size v s = .next t → MarkKeptOrNoted s t := by
    intro off size v h
    rcases busWrite_cases off size v s with ⟨f, he⟩ | ⟨-, r, -, he⟩ <;> rw [he] at h
    · cases h
    · rcases writeReg_cases r v s with ⟨-, he⟩ | ⟨-, op, hd, he⟩ | ⟨-, hd, he⟩ | ⟨d, rfl, hro, he⟩ <;> rw [he] at h <;>
        cases h <;> exact .kept rfl rfl
  have raised : ∀ m, raiseFault m s = .next t → MarkKeptOrNoted s t := by
    intro m h
    obtain ⟨u, rfl⟩ := raiseFault_next _ _ _ h
    exact .noted s u
  have block : ∀ c bx byRow more, compressOne c bx byRow more s = .next t → MarkKeptOrNoted s t := by
    intro c bx byRow more h
    simp only [compressOne] at h; split at h <;> cases h <;> exact .kept rfl rfl
  cases op with
  | wr off size v => exact wr _ _ _ h
  | wrTemp off size x => exact wr _ _ _ h
  | rd off size x =>
    simp only [hostOp, readInto] at h; split at h
    · exact raised _ h
    · cases h; exact .kept rfl rfl
  | poll x =>
    simp only [hostOp, pollOnce] at h; split at h
    · exact raised _ h
    · split at h <;> cases h <;> exact .kept rfl rfl
  | memWrite a x => cases h; exact .kept rfl rfl
  | compress c =>
    simp only [hostOp, startCall] at h; split at h
    · cases h; exact .kept rfl rfl
    · split at h <;> cases h; exact .kept rfl rfl
  | block c bx byRow => exact block _ _ _ _ h
  | walk c k =>
    simp only [hostOp, continueWalk] at h; split at h
    · exact block _ _ _ _ h
    · cases h; exact .kept rfl rfl

/-- What a turn that answers a next state does to FAULT (R27, R93). -/
theorem takeTurn_mark (bits : Nat) (s t : State) (ht : takeTurn bits s = .next t) : MarkKeptOrNoted s t := by
  have ag : ∀ a (u w : State), agentTurn bits a u = .next w → MarkKeptOrNoted u w := by
    intro a u w h
    cases a with
    | host =>
      simp only [agentTurn, hostTurn] at h; split at h
      · cases h; exact .kept rfl rfl
      · exact (hostOp_mark _ _ _ _ h).setProg
    | core =>
      simp only [agentTurn, coreTurn] at h
      split at h
      · cases h; exact .kept rfl rfl
      · rw [exec_instr] at h
        rcases perform_next _ _ _ h with ⟨-, rfl⟩ | ⟨r, rfl⟩
        · exact .kept (afterPerform_frame _ _).outside.fault (afterPerform_frame _ _).outside.unwritten
        · exact .noted u _
    | reset => cases h; exact .kept rfl rfl
  unfold takeTurn at ht
  split at ht
  · exact ag _ _ _ ht
  · exact (ag _ _ _ ht).setSchedule

/-! ## Runs -/

/-- A run of one more step. -/
theorem run_step (k : Nat) (s t : State) (h : step s = .next t) : core.run (k+1) s = core.run k t := by
  have h' : core.step s = .next t := h
  simp [Host.Core.run, h']

/-- A host operation's step, with nothing scheduled and nothing pending. -/
theorem step_host (s : State) (op : HostOp) (rest : List HostOp) (t : State) (hf : s.firstFault = none) (hp : s.prog = op :: rest)
   (hs : s.schedule = [] ∧ s.pending = none) (ht : hostOp Config.hostAddrBits op (s.setProg rest) = .next t) : step s = .next t := by
  unfold step; rw [machineStep_noFault _ _ hf]; unfold takeTurn
  simp only [hs.1, defaultAgent, hs.2, agentTurn, hostTurn, hp, ht, absorbFault]

/-- The step of a host's turn is its operation, with the turn and the operation taken. -/
theorem step_host_turn (s : State) (op : HostOp) (prog : List HostOp) (sched : List Agent) (hf : s.firstFault = none)
    (hp : s.prog = op :: prog) (hs : s.schedule = .host :: sched ∨ (s.schedule = [] ∧ sched = [] ∧ s.pending = none)) :
    step s = absorbFault s (hostOp Config.hostAddrBits op ((s.setSchedule sched).setProg prog)) := by
  unfold step; rw [machineStep_noFault _ _ hf]; unfold takeTurn
  rcases hs with hs | ⟨hs, rfl, hn⟩
  · simp [hs, agentTurn, hostTurn, hp]
  · have : s.setSchedule [] = s := by cases s; simp_all [State.setSchedule]
    rw [this]
    simp [hs, defaultAgent, hn, agentTurn, hostTurn, hp]

/-- A perform step, with nothing scheduled. -/
theorem step_core (s : State) (op : Op) (hf : s.firstFault = none) (hp : s.pending = some op) (hs : s.schedule = []) (hr : s.Ready op) : step s = .next (afterPerform op s) := by
  unfold step; rw [machineStep_noFault _ _ hf]; unfold takeTurn
  simp only [hs, defaultAgent, hp, agentTurn, coreTurn, exec_instr, perform_ready op s hr, absorbFault]

/-- Runs compose. -/
theorem run_trans {a b : Nat} {s t u : State} (h1 : core.run a s = .next t) (h2 : core.run b t = .next u) : core.run (a + b) s = .next u := by
  induction a generalizing s with
  | zero => cases h1; simpa using h2
  | succ a ih =>
    rw [show a + 1 + b = (a + b) + 1 by omega]
    simp only [Host.Core.run] at h1 ⊢
    split at h1
    · exact ih h1
    · cases h1
    · cases h1

/-! ## Extraction -/

/-- Every pixel within the buffer is read (R164). -/
theorem readPixels_ok (c : Call) (m : Memory) (l : List Nat) (h : ∀ a ∈ l, c.src ≤ a ∧ a + 4 ≤ c.src + c.len) : readPixels c m l = .ok (l.map (readWord m)) := by
  induction l with
  | nil => rfl
  | cons a l ih =>
    have ha := h a (by simp)
    simp only [readPixels]
    rw [if_neg (by omega), ih (fun b hb => h b (by simp [hb]))]; rfl

/-- The first pixel past the buffer is the error, whatever comes after it (R164). -/
theorem readPixels_past (c : Call) (m : Memory) (l : List Nat) (a : Nat) (rest : List Nat)
    (h : ∀ b ∈ l, c.src ≤ b ∧ b + 4 ≤ c.src + c.len) (ha : c.src + c.len < a + 4) :
    readPixels c m (l ++ a :: rest) = .error a := by
  induction l with
  | nil => simp only [List.nil_append, readPixels]; rw [if_pos (by omega)]
  | cons b l ih =>
    have hb := h b (by simp)
    simp only [List.cons_append, readPixels]
    rw [if_neg (by omega), ih (fun x hx => h x (by simp [hx]))]

/-- What a call without an error satisfies (R161, R162). -/
theorem callError_none (c : Call) (h : callError c = none) : c.w ≠ 0 ∧ c.h ≠ 0 ∧ c.w % 4 = 0 ∧ c.h % 4 = 0 ∧ c.need ≤ c.len := by
  unfold callError at h
  split at h
  · cases h
  · split at h
    · cases h
    · omega

/-- The pixels of a block of the walk lie in the first `width*height*4` bytes (R164). -/
theorem blockAddrs_bounds (c : Call) (k : Nat) (h : callError c = none) (hk : k < c.blocks) : ∀ a ∈ c.blockAddrs (c.bx k) (c.byRow k), c.src ≤ a ∧ a + 4 ≤ c.src + c.need := by
  obtain ⟨h1, h2, h3, h4, h5⟩ := callError_none c h
  intro a ha
  simp only [Call.blockAddrs, List.mem_map, List.mem_range] at ha
  obtain ⟨i, hi, rfl⟩ := ha
  unfold Call.pixelAddr Call.bx Call.byRow Call.need
  have hw : 0 < c.w / 4 := by omega
  have hq : k / (c.w / 4) < c.h / 4 := by
    apply Nat.div_lt_of_lt_mul; exact hk
  have hr : k % (c.w / 4) < c.w / 4 := Nat.mod_lt _ hw
  have hx : 4 * (k % (c.w / 4)) + i % 4 + 1 ≤ c.w := by omega
  have hy : 4 * (k / (c.w / 4)) + i / 4 + 1 ≤ c.h := by omega
  generalize 4 * (k % (c.w / 4)) + i % 4 = x at *
  generalize 4 * (k / (c.w / 4)) + i / 4 = y at *
  have : (y + 1) * c.w ≤ c.h * c.w := Nat.mul_le_mul_right _ hy
  rw [Nat.add_mul, Nat.mul_comm c.h] at this
  constructor <;> omega

end Sys2Proof.Machine
end

