-- ==== Sys2Proof/Laws/PerInstr.lean ====
section
/-! SUPPORT. Facts about every instruction as syntax, one lemma per constructor. -/

namespace Sys2Proof.Laws.CommandWord

/-- The command word of an instruction matches the instruction's row of the opcode table: RSVD is 0, CAP is its capability bit and OP
its code, so that the bits under the table's mask 0xFFFFFFF7 are the row's match (spec/30_encoding.md R75, R78). -/
def Statement (i : Instr) : Prop :=
  rsvdField (encode i) = 0 ∧ capField (encode i) = i.cap ∧ opField (encode i) = opcodeOf i ∧
    encode i &&& 0xFFFFFFF7 = (opcodeOf i).zeroExtend 32

theorem compress (cap : Bool) : Statement (.compress cap) := by unfold Statement; cases cap <;> decide
theorem bbox (cap : Bool) : Statement (.bbox cap) := by unfold Statement; cases cap <;> decide
theorem quant (cap : Bool) : Statement (.quant cap) := by unfold Statement; cases cap <;> decide
theorem palette (cap : Bool) : Statement (.palette cap) := by unfold Statement; cases cap <;> decide
theorem classify (cap : Bool) : Statement (.classify cap) := by unfold Statement; cases cap <;> decide
theorem serialize (cap : Bool) : Statement (.serialize cap) := by unfold Statement; cases cap <;> decide
theorem reservedOp6 (cap : Bool) : Statement (.reservedOp6 cap) := by unfold Statement; cases cap <;> decide
theorem reservedOp7 (cap : Bool) : Statement (.reservedOp7 cap) := by unfold Statement; cases cap <;> decide

end Sys2Proof.Laws.CommandWord
end

