-- ==== Sys2Proof/Tests/Slice0.lean ====
section
/-! SUPPORT. Tests: well-formedness, decoding from words written out from the spec's tables, one small step per case with the results of
spec/95_test_vectors.md, and a witness for the hypotheses of every statement. -/

namespace Sys2Proof.Tests

open Sys2Proof Sys2Proof.Machine Sys2Proof.Claims

/-! ## Helpers -/

/-- The next state of an outcome, if any. -/
def nextOf (o : Outcome) : Option State :=
  match o with
  | .next t => some t
  | .fault _ => none
  | .refused _ => none

/-- The fault of an outcome, if any. -/
def faultOf (o : Outcome) : Option Fault :=
  match o with
  | .next _ => none
  | .fault f => some f
  | .refused _ => none

/-- The model fault of a read, if any. -/
def readFault (r : Except (Unwritten ⊕ Fault) Word) : Option (Unwritten ⊕ Fault) :=
  match r with
  | .error f => some f
  | .ok _ => none

/-- The word of a read, if any. -/
def readWordOf (r : Except (Unwritten ⊕ Fault) Word) : Option Word :=
  match r with
  | .error _ => none
  | .ok v => some v

/-- Registers of a next state. -/
def regsOf (o : Outcome) (rs : List DataReg) : Option (List Word) := (nextOf o).map (fun t => rs.map t.value)

/-- An idle core just after reset, with some registers written. -/
def demo (ws : List (DataReg × Word)) : State := State.reset.putAll ws

/-- A block as register writes. -/
def block (ps : List Word) : List (DataReg × Word) := pixRegs.zip ps

/-- Sixteen equal pixels. -/
def solid (c : Word) : State := demo (block (List.replicate 16 c))

/-- The grey ramp of CB-6: pixel `i` is (17i, 17i, 17i), alpha 0xFF. -/
def ramp : List Word := (List.range 16).map (fun i => BitVec.ofNat 32 (0xFF000000 + 0x111111 * i))

/-- Every register holds a value: the ramp, and the values of CB-6. -/
def full : State :=
  demo (block ramp ++ [(.rawmin, 0x00000000), (.rawmax, 0x00FFFFFF), (.delta, 0x000F0F0F), (.minc, 0x000F0F0F),
    (.maxc, 0x00F0F0F0), (.ep, 0x0861F79E), (.pal 0, 0x00F7F3F7), (.pal 1, 0x00080C08), (.pal 2, 0x00A7A6A7),
    (.pal 3, 0x00575957), (.idxw, 0x02AAFFD5), (.blkLo, 0x0861F79E), (.blkHi, 0x02AAFFD5)])

/-- The core busy with a command word's operation. -/
def busyWith (w : Word) (op : Op) (s : State) : State := (s.storeCmd w).latch op

/-! ## Well-formedness -/

/-- The reserved OP codes are ill-formed, whatever CAP (R79). -/
theorem test_reserved_ill_formed :
    [Instr.reservedOp6 false, .reservedOp6 true, .reservedOp7 false, .reservedOp7 true].map Instr.wellFormed =
      [false, false, false, false] := by decide

/-- The six operations are well-formed with either capability (R76). -/
theorem test_operations_well_formed :
    [Instr.compress false, .bbox true, .quant false, .palette true, .classify false, .serialize true].map Instr.wellFormed =
      [true, true, true, true, true, true] := by decide

/-! ## Decoding: the words of R80, bit by bit as R75 lays them out -/

theorem test_decode_compress :
    decode 0b00000000000000000000000000000000 = .ok (.compress false) ∧
    decode 0b00000000000000000000000000001000 = .ok (.compress true) := by decide
theorem test_decode_bbox :
    decode 0b00000000000000000000000000000001 = .ok (.bbox false) ∧
    decode 0b00000000000000000000000000001001 = .ok (.bbox true) := by decide
theorem test_decode_quant :
    decode 0b00000000000000000000000000000010 = .ok (.quant false) ∧
    decode 0b00000000000000000000000000001010 = .ok (.quant true) := by decide
theorem test_decode_palette :
    decode 0b00000000000000000000000000000011 = .ok (.palette false) ∧
    decode 0b00000000000000000000000000001011 = .ok (.palette true) := by decide
theorem test_decode_classify :
    decode 0b00000000000000000000000000000100 = .ok (.classify false) ∧
    decode 0b00000000000000000000000000001100 = .ok (.classify true) := by decide
theorem test_decode_serialize :
    decode 0b00000000000000000000000000000101 = .ok (.serialize false) ∧
    decode 0b00000000000000000000000000001101 = .ok (.serialize true) := by decide
theorem test_decode_reserved :
    decode 0b00000000000000000000000000000110 = .ok (.reservedOp6 false) ∧
    decode 0b00000000000000000000000000001110 = .ok (.reservedOp6 true) ∧
    decode 0b00000000000000000000000000000111 = .ok (.reservedOp7 false) ∧
    decode 0b00000000000000000000000000001111 = .ok (.reservedOp7 true) := by decide

/-- One RSVD bit at either end of [31:4] makes the word no row of the table (R79, CP-4). -/
theorem test_decode_rsvd :
    decode 0b00000000000000000000000000010000 = .error .rsvdNonzero ∧
    decode 0b10000000000000000000000000000000 = .error .rsvdNonzero ∧
    decode 0x00000015 = .error .rsvdNonzero ∧ decode 0xFFFFFFFF = .error .rsvdNonzero := by decide

/-- The table word of a row is read by the same decoder; a row longer than one command word is none (R75). -/
theorem test_table_word :
    decodeTableWord 32 0x00000003 = some (.palette false) ∧ decodeTableWord 8 0x0D = some (.serialize true) ∧
    decodeTableWord 32 0x00000010 = none ∧ decodeTableWord 64 0x00000003 = none := by decide

/-! ## The operations, with the vectors of spec/95_test_vectors.md -/

/-- CB-6: the grey ramp. -/
theorem test_compress_ramp :
    regsOf (exec (.compress false) (demo (block ramp)))
        [.rawmin, .rawmax, .delta, .minc, .maxc, .ep, .pal 0, .pal 1, .pal 2, .pal 3, .idxw, .blkLo, .blkHi] =
      some [0x00000000, 0x00FFFFFF, 0x000F0F0F, 0x000F0F0F, 0x00F0F0F0, 0x0861F79E, 0x00F7F3F7, 0x00080C08, 0x00A7A6A7,
        0x00575957, 0x02AAFFD5, 0x0861F79E, 0x02AAFFD5] := by decide +kernel

/-- CB-5: the block on which the network departs from argmin. -/
theorem test_compress_departs :
    regsOf (exec (.compress true) (demo (block ([0xFF584E68, 0xFF480C2D] ++ List.replicate 14 0xFF4F0F65))))
        [.delta, .minc, .maxc, .blkLo, .blkHi] =
      some [0x00010403, 0x00491030, 0x00574A65, 0x3089624A, 0x00000004] := by decide +kernel

/-- BB-3: extents 15, 16 and 255. -/
theorem test_bbox_extents :
    regsOf (exec (.bbox false) (demo (block ([0xFF000000, 0xFFFF100F] ++ List.replicate 14 0xFF050505))))
        [.rawmin, .rawmax, .delta, .minc, .maxc] =
      some [0x00000000, 0x00FF100F, 0x000F0100, 0x000F0100, 0x00F00F0F] := by decide +kernel

/-- BB-5: each extreme from a different pixel. -/
theorem test_bbox_extremes :
    regsOf (exec (.bbox true) (demo (block ([0xFF320AC8, 0xFF3CDC14, 0xFFFA645A] ++ List.replicate 13 0xFF646464))))
        [.rawmin, .rawmax, .delta, .minc, .maxc] =
      some [0x00320A14, 0x00FADCC8, 0x000C0D0B, 0x003E171F, 0x00EECFBD] := by decide +kernel

/-- QU-1: the max corner goes to EP0. -/
theorem test_quant_order :
    regsOf (exec (.quant false) (demo [(.maxc, 0x00F000F0), (.minc, 0x000F000F)])) [.ep] = some [0x0801F01E] := by decide +kernel

/-- QU-5: MINC above MAXC is packed as given. -/
theorem test_quant_unordered :
    regsOf (exec (.quant true) (demo [(.maxc, 0x00000000), (.minc, 0x00FFFFFF)])) [.ep] = some [0xFFFF0000] := by decide +kernel

/-- PA-8: red and blue endpoints. -/
theorem test_palette_red_blue :
    regsOf (exec (.palette false) (demo [(.ep, 0x001FF800)])) [.pal 0, .pal 1, .pal 2, .pal 3] =
      some [0x000000FF, 0x00FF0000, 0x005500AA, 0x00AA0055] := by decide +kernel

/-- PA-3: EP0 below EP1, the same formulas. -/
theorem test_palette_unordered :
    regsOf (exec (.palette true) (demo [(.ep, 0xFFFF0000)])) [.pal 0, .pal 1, .pal 2, .pal 3] =
      some [0x00000000, 0x00FFFFFF, 0x00555555, 0x00AAAAAA] := by decide +kernel

/-- CL-1: a palette written by the host. -/
theorem test_classify_host_palette :
    regsOf (exec (.classify false) (demo (block [0xFF000000, 0xFFFFFFFF, 0xFF0000FF, 0xFFFF0000, 0xFF808080, 0xFF0000C8,
        0xFFC80000, 0xFF646464, 0xFFFF00FF, 0xFF0A0A0A, 0xFFFAFAFA, 0xFF800080, 0xFF00FF00, 0xFF00003C, 0xFF3C0000, 0xFF7F7F7F] ++
        [(.pal 0, 0x00000000), (.pal 1, 0x00FFFFFF), (.pal 2, 0x000000FF), (.pal 3, 0x00FF0000)]))) [.idxw] =
      some [0x008038E0] := by decide +kernel

/-- NW-5, NW-7, NW-13 and NW-14: an index of 1, a tie to 2, and the two departures from argmin. -/
theorem test_network :
    [network 2 1 3 1, network 3 3 1 1, network 5 1 3 4, network 63 58 58 59] = [1, 2, 0, 0] := by decide

/-- SE-3: EP0 below EP1 is not swapped; the window's bytes are the block's. -/
theorem test_serialize_bytes :
    (nextOf (exec (.serialize false) (demo [(.ep, 0xFFFF0000), (.idxw, 0x12345678)]))).map
        (fun t => (List.range 8).map (fun j => windowByte 0x100 t (0x17C + j))) =
      some [some 0x00, some 0x00, some 0xFF, some 0xFF, some 0x78, some 0x56, some 0x34, some 0x12] := by decide +kernel

/-- SE-6: program P3's block. -/
theorem test_serialize_words :
    regsOf (exec (.serialize true) (demo [(.ep, 0x001FF800), (.idxw, 0x008038E0)])) [.blkLo, .blkHi] =
      some [0x001FF800, 0x008038E0] := by decide +kernel

/-- CP-2, CP-3: a reserved OP is rejected at once and leaves the registers. -/
theorem test_reserved_rejected :
    (nextOf (exec (.reservedOp6 false) full)).map (fun t => (t.status, t.pending, t.value .idxw)) =
      some (0x00000016, none, 0x02AAFFD5) ∧
    (nextOf (exec (.reservedOp7 true) full)).map (fun t => (t.status, t.pending, t.value .blkLo)) =
      some (0x00000016, none, 0x0861F79E) := by decide +kernel

/-! ## Functions -/

/-- Q-7, U-2: packing truncates and re-expansion replicates bits. -/
theorem test_quantizer_functions :
    pack565 ⟨100, 150, 200⟩ = 0x64B9 ∧ unpack565 0x64B9 = ⟨99, 150, 206⟩ ∧ unpack565 0xABCD = ⟨173, 121, 107⟩ := by decide

/-- S-1, S-2, and beyond the palette's inputs: the saturation. -/
theorem test_reciprocal :
    reciprocalMul3 3 = 1 ∧ reciprocalMul3 765 = 255 ∧ reciprocalMul3 509 = 169 ∧ reciprocalMul3 32768 = 255 ∧
    reciprocalMul3 65535 = 255 := by decide

/-! ## The bus -/

/-- CP-7, CP-17: a read of a register without a value; a write to a read-only register gives it none. -/
theorem test_unwritten_read :
    readFault (busRead 0x64 4 State.reset) = some (.inl (.read 0x64)) ∧
    (nextOf (busWrite 0x50 4 0x00123456 State.reset)).map (fun t => readFault (busRead 0x50 4 t)) =
      some (some (.inl (.read 0x50))) := by decide +kernel

/-- CP-8, CP-9: FAULT names the first operand without a value, in the order MINC, MAXC, and nothing else is written (R93). -/
theorem test_unwritten_operand :
    nextOf (exec (.quant false) State.reset) = some { State.reset with unwritten := some (.operand .quant .minc) } ∧
    (nextOf (exec (.quant false) (demo [(.minc, 5)]))).map (fun t => (t.firstFault, t.holds .ep)) =
      some (some (.inl (.operand .quant .maxc)), false) := by decide +kernel

/-- The state Unwritten leaves is terminal (R9, R10): the walk after the faulting read does not return its image (R169), and a reset
changes nothing. -/
theorem test_unwritten_is_terminal :
    (nextOf (step (State.reset.setProg [rdOp (.data .ep) 1, .walk ⟨0x1000, 64, 4, 4, 0x2000, false⟩ 1]))).map (fun t =>
        (t.firstFault, t.result, decide (nextOf (step t) = some t),
        decide (nextOf (step (t.setSchedule [.reset])) = some (t.setSchedule [.reset])))) =
      some (some (.inl (.read 0x64)), none, true, true) := by decide +kernel

/-- CP-10, CP-11, CP-12, CP-15: accesses while BUSY. -/
theorem test_busy_access :
    faultOf (busWrite 0x10 4 7 (busyWith 0 .compress full)) = some (.hostProtocol 0x10 .write) ∧
    readWordOf (busRead 0x04 4 (busyWith 0 .compress full)) = some 0x00000001 ∧
    readFault (busRead 0x78 4 (busyWith 0 .compress full)) = some (.inr (.hostProtocol 0x78 .read)) ∧
    readFault (busRead 0x08 4 (busyWith 0 .compress full)) = some (.inr (.busError 0x08 4)) := by decide +kernel

/-- CP-13, CP-14: accesses that are no register's. -/
theorem test_bus_error :
    readFault (busRead 0x04 1 State.reset) = some (.inr (.busError 0x04 1)) ∧
    readFault (busRead 0x06 4 State.reset) = some (.inr (.busError 0x06 4)) ∧
    [0x08, 0x0C, 0x84, 0xFC].map (fun off => readFault (busRead off 4 State.reset)) =
      [some (.inr (.busError 0x08 4)), some (.inr (.busError 0x0C 4)), some (.inr (.busError 0x84 4)),
        some (.inr (.busError 0xFC 4))] := by decide +kernel

/-- CP-16, CP-18, CP-19: STATUS ignores a write; an RGB888 register drops bits [31:24]; a pixel register keeps them. -/
theorem test_write_read :
    nextOf (busWrite 0x04 4 0xFFFFFFFF full) = some full ∧
    (nextOf (busWrite 0x5C 4 0xFFFFFFFF State.reset)).map (fun t => readWordOf (busRead 0x5C 4 t)) = some (some 0x00FFFFFF) ∧
    (nextOf (busWrite 0x1C 4 0x12345678 State.reset)).map (fun t => readWordOf (busRead 0x1C 4 t)) =
      some (some 0x12345678) := by decide +kernel

/-- CP-4, CP-5: an illegal word is stored and rejected; the next legal command clears the error. -/
theorem test_issue :
    (nextOf (busWrite 0x00 4 0x00000015 full)).map (fun t => (t.cmd, t.status, t.pending)) =
      some (0x00000015, 0x00000016, none) ∧
    (nextOf (busWrite 0x00 4 0x00000005 (full.storeCmd 6).reject)).map (fun t => (t.cmd, t.status, t.pending)) =
      some (0x00000005, 0x00000001, some .serialize) := by decide +kernel

/-! ## Steps -/

/-- Each table row's word, placed, is the next thing run: a legal command of a ready core completes; from reset it sets FAULT to
Unwritten and writes nothing; a reserved one is rejected. -/
theorem test_placed_words :
    (nextOf (step (full.withFetchWord 32 0x0000000C))).map (fun t => (t.cmd, t.status, t.value .idxw)) =
      some (0x0000000C, 0x00000002, 0x02AAFFD5) ∧
    (nextOf (step (State.reset.withFetchWord 32 0x00000002))).map (fun t => (t.status, t.unwritten, t.holds .ep)) =
      some (0x00000001, some (.operand .quant .minc), false) ∧
    (nextOf (step (State.reset.withFetchWord 32 0x00000006))).map (fun t => (t.cmd, t.status, t.pending)) =
      some (0x00000006, 0x00000016, none) := by decide +kernel

/-- RS-2: a reset abandons a pending command. -/
theorem test_reset_while_pending :
    (nextOf (step { busyWith 0 .compress full with schedule := [.reset] })).map
        (fun t => (t.cmd, t.status, t.pending, t.holds (.pix 0), t.holds .blkLo)) =
      some (0x00000000, 0x00000000, none, false, false) := by decide +kernel

/-- RS-3: the palette does not survive a reset: CLASSIFY after a reset and sixteen pixels faults at PAL0. -/
theorem test_palette_after_reset :
    (nextOf (exec (.classify false) (full.resetCore.putAll (block ramp)))).map (fun t => (t.unwritten, t.holds .idxw)) =
      some (some (.operand .classify (.pal 0)), false) := by decide +kernel

/-- HC-5, HC-6: the checks of a call and their order. -/
theorem test_call_checks :
    (nextOf (hostOp 32 (.compress ⟨0x1000, 0, 6, 4, 0x2000, false⟩) State.reset)).map State.result =
      some (some (.invalidDimensions 6 4)) ∧
    (nextOf (hostOp 32 (.compress ⟨0x1000, 63, 4, 4, 0x2000, false⟩) State.reset)).map State.result =
      some (some (.bufferTooShort 63 64)) := by decide +kernel

/-- An extraction past the buffer's end is OutOfBounds, from the first pixel that passes it: in a 64-byte buffer read as
an image 8 wide, at column 4, that is the first pixel of row 2 (R164). -/
theorem test_extract_past_end :
    (nextOf (hostOp 32 (.block ⟨0x1000, 64, 8, 4, 0x2000, false⟩ 4 0) State.reset)).map State.result =
      some (some (.extractPastEnd 0x1050)) := by decide +kernel

/-- A pixel's bytes R, G, B, A at +0 to +3 become the word 0xAABBGGRR of R22 (R9, R55). -/
theorem test_extract_bytes :
    (extractBlock ⟨0x1000, 64, 4, 4, 0x2000, false⟩ [(0x1004, 0x11), (0x1005, 0x22), (0x1006, 0x33), (0x1007, 0x44)] 0 0).toOption.map
        (fun ps => ps.take 3) = some [0x00000000, 0x44332211, 0x00000000] := by decide +kernel

/-- `rd IDXW -> t5` then `wr PIX0, t5`: a temporary carries a register's word to another register; to one that is read-only the write
is ignored (R33, R52, R81). -/
theorem test_write_of_a_temporary :
    (nextOf (hostOp 32 (rdOp (.data .idxw) 5) full)).map (fun t =>
        (nextOf (hostOp 32 (wrTempOp (.data (.pix 0)) 5) t)).map (fun u => u.value (.pix 0))) =
      some (some (full.value .idxw)) ∧
    nextOf (hostOp 32 (wrTempOp (.data .blkLo) 5) full) = some full := by decide +kernel

/-- S-13: in an image 16 wide, block (4, 8) is stored at 72. -/
theorem test_block_offset : Call.blockOffset ⟨0, 1024, 16, 16, 0, false⟩ 4 8 = 72 := by decide

/-! ## Witnesses: a state and operands that meet the hypotheses of each statement -/

/-- A fact of every register of the map's list is a fact of every register. -/
theorem every_register {P : DataReg → Prop} (h : ∀ r ∈ dataRegs, P r) : ∀ r, P r := fun r => h r (mem_dataRegs r)

/-- The state right after reset but with a fault mark. -/
def faulted : State := State.reset.recordFault (.busError 0x08 4)

/-- `full` with other alphas, and otherwise the same. -/
def fullOtherAlpha : State := full.putAll (block (ramp.map (fun w => w &&& 0x12FFFFFF)))

/-- `full` with a different pixel 0. -/
def fullOtherPixel : State := full.put (.pix 0) 0xFF123456

/-- A pending COMPRESS whose host polls, with two host turns scheduled first. -/
def polling : State := { busyWith 0 .compress full with schedule := [.host, .host], prog := [.poll 9] }

/-- An 8 by 4 image at 0x1000, its output at the first address after it. -/
def call84 : Call := ⟨0x1000, 128, 8, 4, 0x1080, true⟩

/-- A walk about to take block 1 of `call84`. -/
def walking : State := State.reset.setProg [.walk call84 1]

/-- Decoding: a legal word of either capability, an illegal one by its RSVD field, its lowest and highest bit, and by its OP
(DecodeAndEncodeAgree, DecodeIsTotal, IssueOrReject). -/
theorem witness_decode :
    decode 0x0000000D = .ok (.serialize true) ∧ decodeOp 0x0000000D = some .serialize ∧ decodeOp 0x00000000 = some .compress ∧
    decodeOp 0x00000010 = none ∧ decodeOp 0x80000000 = none ∧ decodeOp 0x00000006 = none ∧ State.reset.busy = false := by decide

/-- Every operand holds a value, for every operation (the six rules, CompressEqualsItsParts, PerformStep, OperationFrame,
ResultsDependOnOperandsOnly, AlphaHasNoEffect, InsetNeverInverts, PaletteIsOrdered, LanesAreIndependent, EndpointsOrderedByCompress). -/
theorem witness_ready (op : Op) : full.Ready op ∧ fullOtherAlpha.Ready op ∧ fullOtherPixel.Ready op := by
  cases op <;> (unfold State.Ready; decide +kernel)

/-- No operand holds a value: the first is named (the six rules, PerformStep, OperationFrame). -/
theorem witness_first_operand :
    State.reset.firstFault = none ∧ FirstWithout .compress State.reset (.pix 0) ∧ FirstWithout .bbox State.reset (.pix 0) ∧ FirstWithout .quant State.reset .minc ∧
    FirstWithout .palette State.reset .ep ∧ FirstWithout .classify State.reset (.pix 0) ∧ FirstWithout .serialize State.reset .ep :=
  ⟨rfl, ⟨[], _, rfl, by simp, by decide +kernel⟩, ⟨[], _, rfl, by simp, by decide +kernel⟩, ⟨[], _, rfl, by simp, by decide +kernel⟩,
    ⟨[], _, rfl, by simp, by decide +kernel⟩, ⟨[], _, rfl, by simp, by decide +kernel⟩, ⟨[], _, rfl, by simp, by decide +kernel⟩⟩

/-- Only the last operand holds no value: PAL3 of CLASSIFY, IDXW of SERIALIZE (the six rules, PerformStep). -/
theorem witness_last_operand :
    (demo [(.ep, 0)]).firstFault = none ∧
    FirstWithout .classify (demo (block ramp ++ [(.pal 0, 0), (.pal 1, 0), (.pal 2, 0)])) (.pal 3) ∧
    FirstWithout .serialize (demo [(.ep, 0)]) .idxw :=
  ⟨by decide +kernel, ⟨pixRegs ++ [.pal 0, .pal 1, .pal 2], [], by decide, by decide +kernel, by decide +kernel⟩,
    ⟨[.ep], [], rfl, by decide +kernel, by decide +kernel⟩⟩

/-- A reserved word, the least and the greatest, at an idle core (ReservedOpsAreRejected). -/
theorem witness_reserved :
    (0x00000006 : Word).toNat / 16 = 0 ∧ (0x00000006 : Word).toNat % 8 = 6 ∧ (0x0000000F : Word).toNat / 16 = 0 ∧
    (0x0000000F : Word).toNat % 8 = 7 ∧ State.reset.busy = false := by decide

/-- A well-formed instruction in CMD, pending, on the core's scheduled turn and with an empty schedule (StepRunsTheInstruction). -/
theorem witness_step_runs :
    (busyWith 0x0000000C .classify full).firstFault = none ∧ decode (busyWith 0x0000000C .classify full).cmd = .ok (.classify true) ∧
    (Instr.classify true).wellFormed = true ∧ (busyWith 0x0000000C .classify full).pending = (Instr.classify true).op? ∧
    (busyWith 0x0000000C .classify full).schedule = [] ∧
    { busyWith 0x0000000C .classify full with schedule := [.core, .host] }.schedule = .core :: [.host] := by decide +kernel

/-- A legal and a reserved word to place (PlacedWordRuns). -/
theorem witness_placed :
    State.reset.firstFault = none ∧ decodeTableWord 32 0x00000008 = some (.compress true) ∧
    (Instr.compress true).op? = some .compress ∧ decodeTableWord 32 0x0000000F = some (.reservedOp7 true) ∧
    (Instr.reservedOp7 true).op? = none := by decide

/-- The core's scheduled turn with an operation pending, ready and not (PerformStep). -/
theorem witness_perform_step :
    (full.withFetchWord 32 0x00000005).firstFault = none ∧ (full.withFetchWord 32 0x00000005).pending = some .serialize ∧
    (full.withFetchWord 32 0x00000005).schedule = .core :: [] ∧ (full.withFetchWord 32 0x00000005).Ready .serialize ∧
    (State.reset.withFetchWord 32 0x00000005).firstFault = none ∧
    (State.reset.withFetchWord 32 0x00000005).pending = some .serialize ∧
    (State.reset.withFetchWord 32 0x00000005).schedule = .core :: [] ∧
    FirstWithout .serialize (State.reset.withFetchWord 32 0x00000005) .ep := by
  refine ⟨by decide +kernel, by decide +kernel, by decide +kernel, by unfold State.Ready; decide +kernel, by decide +kernel,
    by decide +kernel, by decide +kernel, [], [.idxw], rfl, by simp, by decide +kernel⟩

/-- Every operation completes on `full` and on its variants (OperationFrame, ResultsDependOnOperandsOnly, AlphaHasNoEffect,
InsetNeverInverts, PaletteIsOrdered, LanesAreIndependent, EndpointsOrderedByCompress). -/
theorem witness_completes :
    [Op.compress, .bbox, .quant, .palette, .classify, .serialize].all (fun op =>
      [full, fullOtherAlpha, fullOtherPixel].all (fun s => (nextOf (exec (op.instr true) s)).isSome)) = true := by decide +kernel

/-- Two states that agree on QUANT's operands and differ elsewhere (ResultsDependOnOperandsOnly). -/
theorem witness_operands_agree :
    (∀ r ∈ opReads .quant, full.value r = fullOtherPixel.value r) ∧ full ≠ fullOtherPixel := by decide +kernel

/-- Two states that differ in alpha only (AlphaHasNoEffect). -/
theorem witness_alpha : SameButAlpha full fullOtherAlpha ∧ full ≠ fullOtherAlpha :=
  ⟨every_register (by decide +kernel), by decide +kernel⟩

/-- QUANT's monotonicity at both ends and at an equality (QuantizerRoundTrip). -/
theorem witness_monotone : (0 : Byte) ≤ 255 ∧ (7 : Byte) ≤ 7 ∧ pack565 ⟨7, 3, 7⟩ = pack565 ⟨0, 0, 0⟩ := by decide

/-- The greatest inputs of the two ranges (ReciprocalIsThirdOnPaletteInputs). -/
theorem witness_reciprocal : (765 : BitVec 16).toNat ≤ 765 ∧ 32767 < 32768 ∧ 32767 * reciprocalK / 65536 = 10922 := by decide

/-- The palettes of a decreasing, an increasing and an equal pair of endpoints (PaletteIsOrdered). -/
theorem witness_palette_orders :
    (nextOf (exec (.palette false) (demo [(.ep, 0x0000FFFF)]))).map (fun t => [0, 1, 2, 3].map (fun j => chan (t.value (.pal j)) 0)) =
      some [255, 0, 170, 85] ∧
    (nextOf (exec (.palette false) (demo [(.ep, 0xFFFF0000)]))).map (fun t => [0, 1, 2, 3].map (fun j => chan (t.value (.pal j)) 0)) =
      some [0, 255, 85, 170] ∧
    (nextOf (exec (.palette false) (demo [(.ep, 0x84108410)]))).map (fun t => [0, 1, 2, 3].map (fun j => chan (t.value (.pal j)) 0)) =
      some [132, 132, 132, 132] := by decide +kernel

/-- Distances that meet each consequence of the closed form, ties among them: (1,1,2,2), (10,10,10,9), (3,3,1,1), (2,1,3,1)
(NetworkClosedForm). -/
theorem witness_network :
    (1 ≤ 1 ∧ 1 ≤ 2) ∧ (9 < 10) ∧ (1 < 3 ∧ 1 ≤ 1) ∧ (1 ≤ 1 ∧ 1 < 2 ∧ 1 < 3) ∧
    [network 1 1 2 2, network 10 10 10 9, network 3 3 1 1, network 2 1 3 1] = [0, 3, 2, 1] := by decide

/-- Two blocks that agree in pixel 15 and the palette and differ in pixel 0 (LanesAreIndependent). -/
theorem witness_lanes :
    full.value (.pix 15) = fullOtherPixel.value (.pix 15) ∧ (∀ j : Fin 4, full.value (.pal j) = fullOtherPixel.value (.pal j)) ∧
    full.value (.pix 0) ≠ fullOtherPixel.value (.pix 0) := by decide +kernel

/-- COMPRESS with distinct and with equal endpoints (EndpointsOrderedByCompress). -/
theorem witness_endpoints :
    (nextOf (exec (.compress false) full)).map (fun t => (ep0 t, ep1 t)) = some (0xF79E, 0x0861) ∧
    (nextOf (exec (.compress false) (solid 0xFF804020))).map (fun t => (ep0 t, ep1 t)) = some (0x2210, 0x2210) := by decide +kernel

/-- A solid block with mixed alphas, and an all-black one (SolidBlock, BlackBlock). -/
theorem witness_solid :
    ((solid 0xFF804020).put (.pix 3) 0x01804020).Ready .compress ∧ chan 0x00804020 3 = 0 ∧
    (∀ i : Fin 16, ∀ k < 3, pixChan ((solid 0xFF804020).put (.pix 3) 0x01804020) i k = chan 0x00804020 k) ∧
    (solid 0xFF000000).Ready .compress ∧ (∀ i : Fin 16, ∀ k < 3, pixChan (solid 0xFF000000) i k = 0) := by
  unfold State.Ready; decide +kernel

/-- Two distinct registers, neighbours in the map (RegistersAreDistinct). -/
theorem witness_registers : (DataReg.pix 15 ≠ .rawmin) ∧ (Reg.data .blkHi).offset = 0x80 ∧ (Reg.data (.pix 15)).offset = 0x4C := by
  decide

/-- Bad accesses on each side of the mapped offsets, and mapped ones at their ends (BadAccessIsBusError, AccessWhileBusy). -/
theorem witness_offsets :
    ¬ Mapped 0x08 ∧ ¬ Mapped 0x0C ∧ ¬ Mapped 0x84 ∧ ¬ Mapped 0xFC ∧ ¬ Mapped 0x06 ∧ ¬ Mapped 0x81 ∧ (1 ≠ 4) ∧
    Mapped 0x00 ∧ Mapped 0x04 ∧ Mapped 0x10 ∧ Mapped 0x80 ∧ (busyWith 0 .compress full).busy = true := by
  unfold Mapped; decide +kernel

/-- An idle core with a register that holds a value and one that does not (ReadsReturnRegisters, WritesStoreOrAreIgnored). -/
theorem witness_idle_access :
    (demo [(.ep, 5)]).busy = false ∧ (demo [(.ep, 5)]).firstFault = none ∧ (demo [(.ep, 5)]).holds .ep = true ∧ (demo [(.ep, 5)]).holds .blkHi = false ∧
    DataReg.pix 0 ∈ hostWritable ∧ DataReg.pix 15 ∈ hostWritable ∧ DataReg.idxw ∈ hostWritable ∧ DataReg.minc ∈ rgb888 := by
  decide +kernel

/-- A readable register, and the bytes just outside the window (WindowIsLittleEndian). -/
theorem witness_window :
    full.readReg (.data .blkHi) = some 0x02AAFFD5 ∧ full.readReg .cmd = some 0 ∧ windowByte 0x100 full 0xFF = none ∧
    windowByte 0x100 full 0x200 = none ∧ windowByte 0x100 full 0x183 = some 0x02 := by decide +kernel

/-- States with FAULT set, to each kind of model fault (FaultIsTerminal). -/
theorem witness_faulted :
    faulted.fault = some (.busError 0x08 4) ∧ (State.reset.note (.read 0x64)).fault = none ∧
    (State.reset.note (.read 0x64)).unwritten = some (.read 0x64) := by decide

/-- Steps that set FAULT: a BusError, and an Unwritten operand (FaultingStepWritesNothing). -/
theorem witness_faulting_step :
    (State.reset.setProg [.rd 0x08 4 0]).firstFault = none ∧
    (nextOf (step (State.reset.setProg [.rd 0x08 4 0]))).map State.firstFault = some (some (.inr (.busError 0x08 4))) ∧
    (State.reset.withFetchWord 32 0x00000003).firstFault = none ∧
    (nextOf (step (State.reset.withFetchWord 32 0x00000003))).map State.firstFault =
      some (some (.inl (.operand .palette .ep))) := by
  decide +kernel

/-- The host's turn, scheduled and by default, with an access that meets each model fault: a read of an unmapped offset, a write of half
a word, a write of an idle core's operand while BUSY = 1, and a read of a register without a value (FaultingAccessSetsFault). -/
theorem witness_faulting_access :
    HostTurn (State.reset.setProg [.rd 0x84 4 0]) (.rd 0x84 4 0) [] [] ∧ IsAccess (.rd 0x84 4 0) .read 0x84 4 ∧ ¬ Mapped 0x84 ∧
    IsAccess (.wrTemp 0x80 2 5) .write 0x80 2 ∧ Mapped 0x80 ∧ ¬ (AccessKind.write = .read ∧ (0x80 : BitVec 8) = 0x04) ∧
    HostTurn { busyWith 0 .compress full with schedule := [.host, .core], prog := [.wr 0x10 4 7, .poll 0] } (.wr 0x10 4 7) [.poll 0] [.core] ∧
    IsAccess (.wr 0x10 4 7) .write 0x10 4 ∧ Mapped 0x10 ∧ (busyWith 0 .compress full).busy = true ∧
    HostTurn (State.reset.setProg [.rd (Reg.data .blkHi).offset 4 1]) (.rd (Reg.data .blkHi).offset 4 1) [] [] ∧
    State.reset.busy = false ∧ State.reset.holds .blkHi = false := by
  refine ⟨⟨rfl, rfl, .inr ⟨rfl, rfl, rfl⟩⟩, ⟨0, rfl⟩, by unfold Mapped; decide, .inr ⟨5, rfl⟩, by unfold Mapped; decide, by decide,
    ⟨by decide +kernel, rfl, .inl rfl⟩, .inl ⟨7, rfl⟩, by unfold Mapped; decide, by decide +kernel,
    ⟨rfl, rfl, .inr ⟨rfl, rfl, rfl⟩⟩, by decide, by decide +kernel⟩

/-- FAULT set by Unwritten, at the start of a step that answers a next state, with a reset due among them (FaultMarkIsNeverCleared). -/
theorem witness_fault_mark :
    (State.reset.note (.read 0x64)).firstFault = some (.inl (.read 0x64)) ∧
    [[Agent.reset], [Agent.core], []].all (fun a => (nextOf (step ((State.reset.note (.read 0x64)).setSchedule a))).isSome) = true := by
  decide +kernel

/-- A reset due while a command is pending (ResetEvent). -/
theorem witness_reset_event :
    { busyWith 0 .compress full with schedule := [.reset, .core] }.firstFault = none ∧
    { busyWith 0 .compress full with schedule := [.reset, .core] }.schedule = .reset :: [.core] := by decide +kernel

/-- A busy state that meets the invariant and takes a step (StepKeepsInvariant, PendingCommandIsAllOrNothing). -/
theorem witness_invariant :
    (busyWith 0 .compress full).Inv ∧ (busyWith 0 .compress full).pending = some .compress ∧
    (nextOf (step (busyWith 0 .compress full))).isSome = true := by
  refine ⟨⟨.inr (.inl (by decide +kernel)), ?_, ?_, ?_, every_register (by decide +kernel), by unfold State.deltaAgrees; decide +kernel,
    by decide +kernel, by decide +kernel⟩, by decide +kernel, by decide +kernel⟩
  · unfold State.busyIffPending; decide +kernel
  · intro op h
    cases (Option.some.inj (show some Op.compress = some op from h))
    decide +kernel
  · intro h
    exact absurd h (by decide +kernel)

/-- Steps with each kind of change of STATUS: issue, rejection, completion, reset (StatusChangesOnlyByCommandsAndReset). -/
theorem witness_status_changes :
    (nextOf (step (full.setProg [wrOp .cmd 0x00000002]))).map State.status = some 0x00000001 ∧
    (nextOf (step (full.setProg [wrOp .cmd 0x00000010]))).map State.status = some 0x00000016 ∧
    (nextOf (step (busyWith 0x00000002 .quant full))).map State.status = some 0x00000002 ∧
    (nextOf (step ((busyWith 0x00000002 .quant full).setSchedule [.reset]))).map State.status = some 0x00000000 := by
  decide +kernel

/-- A poll with two host turns before the perform step, and the status it ends with (PollEnds). -/
theorem witness_polling :
    polling.firstFault = none ∧ polling.pending = some .compress ∧ polling.status = 0x00000001 ∧ polling.Ready .compress ∧
    sparseWf polling.temps = true ∧ polling.schedule = List.replicate 2 .host ∧ polling.prog = .poll 9 :: [] := by
  unfold State.Ready; decide +kernel

/-- A final state with nothing scheduled (FinalStateIsIdle). -/
theorem witness_final : full.final ∧ full.schedule = [] := by unfold State.final; decide +kernel

/-- Memory in canonical form, and the bytes around a stored word (HostStoreFrame). -/
theorem witness_store :
    State.reset.mem.wf = true ∧
    (nextOf (hostOp 32 (.memWrite 0x1000 1) (State.reset.setTemp 1 0x02AAFFD5))).map
        (fun t => [0x0FFF, 0x1000, 0x1001, 0x1002, 0x1003, 0x1004].map (readByte t.mem)) =
      some [0x00, 0xD5, 0xFF, 0xAA, 0x02, 0x00] := by decide +kernel

/-- Calls for each check: a zero width, a zero height, a width and a height that are no multiple of 4, a buffer one byte short; and
the shortest and a longer buffer that pass (CallChecks, CallFitsAddressWidth). -/
theorem witness_calls :
    [(⟨0, 0, 0, 4, 0, false⟩ : Call), ⟨0, 0, 4, 0, 0, false⟩, ⟨0, 96, 6, 4, 0, false⟩, ⟨0, 96, 4, 6, 0, false⟩, ⟨0, 63, 4, 4, 0, false⟩,
      ⟨0, 64, 4, 4, 0, false⟩, ⟨0, 100, 4, 4, 0, true⟩].map callError =
    [some (.invalidDimensions 0 4), some (.invalidDimensions 4 0), some (.invalidDimensions 6 4), some (.invalidDimensions 4 6),
      some (.bufferTooShort 63 64), none, none] := by decide

/-- The premises of each clause, met together (CallChecks, CallFitsAddressWidth). -/
theorem witness_call_premises :
    ((⟨0, 96, 6, 4, 0, false⟩ : Call).width.toNat % 4 ≠ 0) ∧
    ((4 : BitVec 32) ≠ 0 ∧ (4 : BitVec 32).toNat % 4 = 0 ∧ 63 < (4 : BitVec 32).toNat * (4 : BitVec 32).toNat * 4 ∧
      (4 : BitVec 32).toNat * (4 : BitVec 32).toNat * 4 ≤ 64) ∧
    (0 + 64 < 2 ^ 32 ∧ 0xFFFFFFF7 + 4 / 4 * (4 / 4) * 8 < 2 ^ 32) ∧ ¬ 0xFFFFFFF8 + 4 / 4 * (4 / 4) * 8 < 2 ^ 32 := by decide

/-- The last output buffer that fits 32 address bits and the first that does not; the same for the pixels (CallFitsAddressWidth). -/
theorem witness_address_width :
    [(⟨0, 64, 4, 4, 0xFFFFFFF7, false⟩ : Call), ⟨0, 64, 4, 4, 0xFFFFFFF8, false⟩, ⟨0xFFFFFFBF, 64, 4, 4, 0, false⟩,
      ⟨0xFFFFFFC0, 64, 4, 4, 0, false⟩].map (Call.fits 32) = [true, false, true, false] := by decide

/-- The last block of `call84` ends with the buffer's last byte; in a buffer of half that length its third row is past the end, and its
second ends with the last byte (ExtractionReadsTheBlock, ExtractionPastTheEnd). -/
theorem witness_extraction :
    (∀ i < 16, pixelOffset call84 4 0 i + 4 ≤ call84.len) ∧ pixelOffset call84 4 0 15 + 4 = call84.len ∧
    (∀ j < 8, pixelOffset { call84 with len := 64 } 4 0 j + 4 ≤ 64) ∧ pixelOffset { call84 with len := 64 } 4 0 7 + 4 = 64 ∧
    64 < pixelOffset { call84 with len := 64 } 4 0 8 + 4 ∧
    1 < Call.blocks { call84 with len := 64 } ∧ Call.bx { call84 with len := 64 } 1 = 4 ∧ Call.byRow { call84 with len := 64 } 1 = 0 := by
  decide

/-- The first and the last block of an image, each extracted (ExtractionReadsTheBlock, OutputOffsetsTile). -/
theorem witness_blocks :
    callError call84 = none ∧ 0 < call84.blocks ∧ 1 < call84.blocks ∧ ¬ 2 < call84.blocks ∧ call84.bx 1 = 4 ∧ call84.byRow 1 = 0 := by
  decide

/-- Blocks of an image in another order, one of them twice (BlocksInAnyOrder). -/
theorem witness_any_order :
    (∀ k ∈ [1, 0, 1], k < call84.blocks) ∧
    Idle (State.reset.setProg ([1, 0, 1].map (fun k => .block call84 (call84.bx k) (call84.byRow k)))) ∧
    call84.src + call84.need ≤ call84.dst := ⟨by decide, ⟨rfl, rfl, by decide +kernel, rfl, rfl, rfl⟩, by decide⟩

/-- An idle core in a walk, its output just after its pixels, or just before them (OneBlockOfTheWalk, WalkCompressesTheImage). -/
theorem witness_walk :
    Idle walking ∧ walking.prog = .walk call84 1 :: [] ∧ Idle (walking.setProg [.walk call84 0]) ∧
    call84.src + call84.need ≤ call84.dst ∧
    (⟨0x1010, 128, 8, 4, 0x1000, true⟩ : Call).dst + Call.outLen ⟨0x1010, 128, 8, 4, 0x1000, true⟩ ≤ 0x1010 :=
  ⟨⟨rfl, rfl, by decide +kernel, rfl, rfl, rfl⟩, rfl, ⟨rfl, rfl, by decide +kernel, rfl, rfl, rfl⟩, by decide, by decide⟩

end Sys2Proof.Tests
end

section
/-! The host's word store: the bytes it writes, the bytes it keeps, and the state around them (R9, R50). -/

namespace Sys2Proof.Machine

open Sys2Proof.Claims

/-- The model's byte `k` of a word is the spec's bit field `[8k+7 : 8k]` (R9, R53). -/
theorem byteOf_toNat (w : Word) (k : Nat) : (byteOf w k).toNat = chan w k := by
  rw [byteOf, BitVec.extractLsb'_toNat, Nat.shiftRight_eq_div_pow, chan]

/-- After a word write at `a`, the byte at `a + k` is byte `k` of the word (R9). -/
theorem readByte_writeWord_inside (m : Memory) (a k : Nat) (w : Word) (h : m.wf = true) (hk : k < 4) :
    readByte (writeWord m a w) (a + k) = byteOf w k := by
  rw [readByte_writeWord m a (a + k) w h, if_pos (by omega), Nat.add_sub_cancel_left]

/-- A word write at `a` leaves every byte outside `a .. a+3` as it was (R9). -/
theorem readByte_writeWord_outside (m : Memory) (a b : Nat) (w : Word) (h : m.wf = true) (hb : b < a ∨ a + 4 ≤ b) :
    readByte (writeWord m a w) b = readByte m b := by
  rw [readByte_writeWord m a b w h, if_neg (by omega)]

/-- The host's store is one word write to memory, on a busy core too (log entry 30). -/
theorem hostOp_memWrite (bits a x : Nat) (s : State) :
    hostOp bits (.memWrite a x) s = .next (s.setMem (writeWord s.mem a (s.temp x))) := rfl

/-- Settles O45: the store is one `writeWord`, so its bytes, its frame and the canonical form are the laws of host memory. -/
theorem hostStoreFrame : Obligations.HostStoreFrame := by
  intro bits a x s hwf
  refine ⟨s.setMem (writeWord s.mem a (s.temp x)), hostOp_memWrite bits a x s, ?bytes, ?frame, ?canonical, rfl⟩
  case bytes =>
    intro k hk
    rw [State.setMem_mem, readByte_writeWord_inside s.mem a k _ hwf hk, byteOf_toNat]
  case frame =>
    intro b hb
    rw [State.setMem_mem, readByte_writeWord_outside s.mem a b _ hwf hb]
  case canonical => exact writeWord_wf s.mem a (s.temp x) hwf

end Sys2Proof.Machine
end

section
/-! The register map and the bus checks as the statements name them: which offsets are mapped (R21, R51), which registers a host may
write and which have the RGB888 layout (R21, R22), and what an access of each kind meets (R33, R52, R185, R186). -/

namespace Sys2Proof.Machine

open Sys2Proof.Claims

/-! ## The register map -/

/-- Distinct registers stand at distinct offsets: an offset has one register at it (R21, R30). -/
theorem Reg.offset_injective (r q : Reg) (h : r.offset = q.offset) : r = q := by
  have hr := regAt_offset r
  rw [h, regAt_offset q] at hr
  exact (Option.some.inj hr).symm

/-- Every register's offset is one of the map's (R21). -/
theorem mapped_offset (r : Reg) : Mapped r.offset := by
  have all : ∀ q ∈ allRegs, q.offset.toNat % 4 = 0 ∧
      (q.offset.toNat ≤ 0x04 ∨ (0x10 ≤ q.offset.toNat ∧ q.offset.toNat ≤ 0x80)) := by decide
  exact all r (mem_allRegs r)

/-- Every offset of the map is a register's: CMD's, STATUS's, or that of data register `n` at `0x10 + 4*n` (R21). -/
theorem exists_offset_eq_of_mapped (off : BitVec 8) (h : Mapped off) : ∃ r : Reg, r.offset = off := by
  have data : ∀ n < 29, ∃ r ∈ allRegs, r.offset.toNat = 0x10 + 4 * n := by decide
  have found : ∃ r : Reg, r.offset.toNat = off.toNat := by
    obtain ⟨haligned, hlow | hdata⟩ := h
    · have : off.toNat = 0x00 ∨ off.toNat = 0x04 := by omega
      rcases this with h0 | h4
      · exact ⟨.cmd, h0.symm⟩
      · exact ⟨.status, h4.symm⟩
    · obtain ⟨r, -, hr⟩ := data ((off.toNat - 0x10) / 4) (by omega)
      exact ⟨r, by omega⟩
  obtain ⟨r, hr⟩ := found
  exact ⟨r, BitVec.eq_of_toNat_eq hr⟩

/-- At an offset that is not mapped there is no register (R51). -/
theorem regAt_eq_none_of_not_mapped (off : BitVec 8) (h : ¬ Mapped off) : regAt off = none := by
  cases hr : regAt off with
  | none => rfl
  | some r => exact absurd (offset_of_regAt off r hr ▸ mapped_offset r) h

/-- The registers the spec lists as RGB888 are those the model stores as such (R22). -/
theorem mem_rgb888 (r : DataReg) : r ∈ rgb888 ↔ r.isRgb = true := by
  have all : ∀ q ∈ dataRegs, q ∈ rgb888 ↔ q.isRgb = true := by decide
  exact all r (mem_dataRegs r)

/-- A register the spec lists as read/write is not read-only in the model (R21). -/
theorem readOnly_of_mem_hostWritable (r : DataReg) (h : r ∈ hostWritable) : (Reg.data r).readOnly = false := by
  have all : ∀ q ∈ hostWritable, (Reg.data q).readOnly = false := by decide
  exact all r h

/-! ## The bits a register stores -/

/-- Clearing bits [31:24] of a word clears byte 3 and keeps the other three (R22). -/
theorem chan_and_rgbMask (w : Word) (k : Nat) (hk : k < 4) : chan (w &&& 0x00FFFFFF) k = if k = 3 then 0 else chan w k := by
  have hmod : (w &&& 0x00FFFFFF).toNat = w.toNat % 2 ^ 24 := by
    rw [BitVec.toNat_and]
    exact Nat.and_two_pow_sub_one_eq_mod w.toNat 24
  have : k = 0 ∨ k = 1 ∨ k = 2 ∨ k = 3 := by omega
  rcases this with rfl | rfl | rfl | rfl <;> simp only [chan, hmod, Nat.reducePow, Nat.reduceMul, Nat.reduceEqDiff, reduceIte] <;> omega

/-- A register keeps the four bytes written to it, but for byte 3 of an RGB888 register, which it keeps as 0 (R22, R32). -/
theorem chan_stored (r : DataReg) (w : Word) (k : Nat) (hk : k < 4) :
    chan (r.stored w) k = if r ∈ rgb888 ∧ k = 3 then 0 else chan w k := by
  simp only [DataReg.stored, mem_rgb888]
  split
  · rename_i hrgb
    simp only [chan_and_rgbMask w k hk, hrgb, true_and]
  · rename_i hrgb
    rw [if_neg fun h => hrgb h.1]

/-! ## What an access meets -/

/-- An access of another size than 4, or of an offset that is not mapped, is BusError, whatever the state (R52, R186). -/
theorem checkAccess_busError (kind : AccessKind) (off : BitVec 8) (size : Nat) (s : State) (h : size ≠ 4 ∨ ¬ Mapped off) :
    checkAccess kind off size s = .error (.busError off size) := by
  unfold checkAccess
  split
  · rfl
  · rename_i hshape
    have hunmapped : ¬ Mapped off := h.resolve_left fun hs => hshape (.inl hs)
    rw [regAt_eq_none_of_not_mapped off hunmapped]

/-- While BUSY = 1 any other access but a read of STATUS is HostProtocol (R52, R185). -/
theorem checkAccess_hostProtocol (kind : AccessKind) (off : BitVec 8) (s : State) (hm : Mapped off) (hb : s.busy = true)
    (h : ¬ (kind = .read ∧ off = 0x04)) : checkAccess kind off 4 s = .error (.hostProtocol off kind) := by
  obtain ⟨r, rfl⟩ := exists_offset_eq_of_mapped off hm
  have hother : ¬ (kind = .read ∧ r = .status) := fun ⟨hk, hr⟩ => h ⟨hk, hr ▸ rfl⟩
  simp [checkAccess, regAt_offset, offset_aligned, hb, hother]

/-- A write to a register of an idle core passes the checks (R52). -/
theorem busWrite_idle (r : Reg) (v : Word) (s : State) (hb : s.busy = false) : busWrite r.offset 4 v s = writeReg r v s := by
  simp [busWrite, checkAccess_idle .write s hb r]

/-- A write to a register that is read-only is ignored (R33). -/
theorem writeReg_readOnly (r : Reg) (v : Word) (s : State) (h : r.readOnly = true) : writeReg r v s = .next s := by
  simp [writeReg, h]

/-- A write to a data register that is not read-only stores the word and sets the valid bit (R22, R23). -/
theorem writeReg_data (r : DataReg) (v : Word) (s : State) (h : (Reg.data r).readOnly = false) :
    writeReg (.data r) v s = .next (s.put r v) := by
  simp [writeReg, h]

/-- A read of a data register of an idle core that holds a value returns it (R23, R52). -/
theorem busRead_data (r : DataReg) (s : State) (hb : s.busy = false) (hv : s.holds r = true) :
    busRead (Reg.data r).offset 4 s = .ok (s.value r) := by
  simp [busRead, checkAccess_idle .read s hb (.data r), State.readReg, hv]

/-- The host's access that fails the checks is the fault they name: a read and a write check alike (R52). -/
theorem hostOp_access_error (bits : Nat) (op : HostOp) (kind : AccessKind) (off : BitVec 8) (size : Nat) (s : State) (f : Fault)
    (hop : IsAccess op kind off size) (hc : checkAccess kind off size s = .error f) : hostOp bits op s = .fault f := by
  cases kind with
  | read =>
    obtain ⟨x, rfl⟩ := hop
    simp [hostOp, readInto, busRead, hc, raiseFault]
  | write =>
    rcases hop with ⟨v, rfl⟩ | ⟨x, rfl⟩ <;> simp [hostOp, busWrite, hc]

end Sys2Proof.Machine
end

section
/-! The statements on the state: distinct registers, what a host write and an operation leave unchanged, the events that change STATUS,
and the fault mark (spec/10_state.md R25 to R33). -/

namespace Sys2Proof.Machine

open Sys2Proof.Claims

/-! ## Registers -/

/-- Settles O29: an offset has one register at it, and a write to a data register changes its own cell only. -/
theorem registersAreDistinct : Obligations.RegistersAreDistinct :=
  ⟨Reg.offset_injective, fun s _ _ v hq => s.put_cell_other v hq⟩

/-- A data register write changes the register file only. -/
theorem State.put_sameOutside (s : State) (r : DataReg) (v : Word) : State.SameOutside s (s.put r v) :=
  ⟨rfl, rfl, rfl, rfl, rfl, rfl, rfl⟩

/-- A data register write leaves BUSY as it was. -/
theorem State.put_busy (s : State) (r : DataReg) (v : Word) : (s.put r v).busy = s.busy := rfl

/-- Settles O33: on an idle core the write is `put` at a read/write data register and the identity at a read-only one. -/
theorem writesStoreOrAreIgnored : Obligations.WritesStoreOrAreIgnored := by
  intro s v hb
  refine ⟨fun r hr => ?stores, fun r hr => ?ignored⟩
  case stores =>
    have hwrite : busWrite (Reg.data r).offset 4 v s = .next (s.put r v) := by
      rw [busWrite_idle _ v s hb, writeReg_data r v s (readOnly_of_mem_hostWritable r hr)]
    have hbits : ∀ k < 4, chan ((s.put r v).value r) k = if r ∈ rgb888 ∧ k = 3 then 0 else chan v k := by
      intro k hk
      rw [State.put_value_self, chan_stored r v k hk]
    have hread : busRead (Reg.data r).offset 4 (s.put r v) = .ok ((s.put r v).value r) :=
      busRead_data r _ ((s.put_busy r v).trans hb) (s.put_holds_self r v)
    exact ⟨s.put r v, hwrite, s.put_holds_self r v, hbits, hread, fun q hq => s.put_cell_other v hq, rfl, rfl, rfl,
      s.put_sameOutside r v⟩
  case ignored =>
    have hro : r.readOnly = true := by
      have all : ∀ q ∈ [Reg.status, .data .rawmin, .data .rawmax, .data .delta, .data .blkLo, .data .blkHi],
        q.readOnly = true := by decide
      exact all r hr
    rw [busWrite_idle r v s hb, writeReg_readOnly r v s hro]

/-! ## Operations -/

/-- Noting Unwritten changes at most the mark, and nothing where a model fault was raised before (R27). -/
theorem State.note_frame (s : State) (u : Unwritten) :
    s.note u = { s with unwritten := (s.note u).unwritten } ∧ (s.firstFault = none ∨ s.note u = s) := by
  by_cases h : s.firstFault = none
  · exact ⟨by rw [s.note_first u h], .inl h⟩
  · exact ⟨by rw [s.note_again u h], .inr (s.note_again u h)⟩

/-- Settles O15: a command's meaning is its perform step, which completes the operation or only notes Unwritten. -/
theorem operationFrame : Obligations.OperationFrame := by
  intro op cap s
  rw [exec_instr]
  rcases perform_cases op s with ⟨hready, hnext⟩ | ⟨hmissing, r, -, hnext⟩
  · have hframe := afterPerform_frame op s
    exact ⟨_, hnext, fun a => by rw [hframe.outside.mem], .inl ⟨hready, afterPerform_completed op s, hframe⟩⟩
  · obtain ⟨hmark, hfirst⟩ := s.note_frame (.operand op r)
    exact ⟨_, hnext, fun a => by rw [State.note_mem], .inr ⟨hmissing, hmark, hfirst⟩⟩

/-! ## STATUS -/

/-- STATUS from a legal issue until completion, as a number (R25, R90). -/
theorem statusBusy_eq : statusBusy = 0x00000001 := by decide

/-- STATUS after a rejected command, as a number (R25, R91). -/
theorem statusIllegal_eq : statusIllegal = 0x00000016 := by decide

/-- STATUS after reset, as a number (R35). -/
theorem statusReset_eq : statusReset = 0x00000000 := by decide

/-- What a host write that passed the checks may do to STATUS: keep it, or issue or reject the command written to CMD (R33, R90, R91). -/
theorem writeReg_status (r : Reg) (v : Word) (s t : State) (h : writeReg r v s = .next t) :
    t.status = s.status ∨
    (t.status = 0x00000001 ∧ ∃ op, decodeOp t.cmd = some op ∧ t.pending = some op) ∨
    (t.status = 0x00000016 ∧ decodeOp t.cmd = none ∧ t.pending = none) := by
  rcases writeReg_cases r v s with ⟨-, hw⟩ | ⟨-, op, hd, hw⟩ | ⟨-, hd, hw⟩ | ⟨d, -, -, hw⟩ <;> rw [hw] at h <;> cases h
  case inl => exact .inl rfl
  case inr.inl => exact .inr (.inl ⟨statusBusy_eq, op, hd, rfl⟩)
  case inr.inr.inl => exact .inr (.inr ⟨statusIllegal_eq, hd, rfl⟩)
  case inr.inr.inr => exact .inl rfl

/-- Settles O41: a step that does not leave the core as it was is a host write to an idle core, a completion or a reset. -/
theorem statusChangesOnlyByCommandsAndReset : Obligations.StatusChangesOnlyByCommandsAndReset := by
  intro s t hstep hchanged
  rcases step_cases s t hstep with hsame | ⟨u, hu, hb, r, v, hw⟩ | ⟨u, op, hu, hp, -, rfl⟩ | ⟨u, -, rfl⟩
  · exact absurd hsame.status hchanged
  · rcases writeReg_status r v u t hw with hkept | ⟨hs, hissued⟩ | ⟨hs, hrejected⟩
    · exact absurd (hkept.trans hu.status) hchanged
    · exact .inl ⟨hb, hs, hissued⟩
    · exact .inr (.inl ⟨hb, hs, hrejected⟩)
  · have hdone := afterPerform_completed op u
    exact .inr (.inr (.inl ⟨hdone.status, op, hu.pending ▸ hp, hdone⟩))
  · exact .inr (.inr (.inr ⟨statusReset_eq, rfl, rfl, fun r => by simp [State.holds]⟩))

/-! ## The fault mark -/

/-- With BusError or HostProtocol in FAULT every step is that fault, whatever is scheduled (R27). -/
theorem step_faulted (s : State) (f : Fault) (h : s.fault = some f) : step s = .fault f :=
  machineStep_faulted _ s f h

/-- With Unwritten in FAULT, and neither of the others, every step answers the same state (R9, R10, R27). -/
theorem step_unwritten (s : State) (u : Unwritten) (hf : s.fault = none) (hu : s.unwritten = some u) : step s = .next s :=
  machineStep_unwritten _ s u hf hu

/-- A final state has no fault mark in either field (R207). -/
theorem State.final.noMark {s : State} (h : s.final) : s.unwritten = none ∧ s.fault = none := by
  obtain ⟨-, -, hmark⟩ := h
  exact s.firstFault_eq_none.mp hmark

/-- Settles O35: the step looks at FAULT before it looks at the schedule. -/
theorem faultIsTerminal : Obligations.FaultIsTerminal := by
  refine ⟨fun s f hf => ⟨fun a => step_faulted _ f hf, fun hfinal => ?_⟩,
    fun s u hf hu => ⟨fun a => step_unwritten _ u hf hu, fun hfinal => ?_⟩⟩
  · simp [hfinal.noMark.2] at hf
  · simp [hfinal.noMark.1] at hu

/-- A step that answers a next state, from a state with a fault mark, answers that very state (R9, R10, R27). -/
theorem step_next_of_mark (s t : State) (hmark : s.firstFault ≠ none) (hstep : step s = .next t) : t = s := by
  cases hf : s.fault with
  | some f => rw [step_faulted s f hf] at hstep; cases hstep
  | none =>
    cases hu : s.unwritten with
    | none => exact absurd (s.firstFault_eq_none.mpr ⟨hu, hf⟩) hmark
    | some u => rw [step_unwritten s u hf hu] at hstep; cases hstep; rfl

/-- Settles O54: once FAULT is set, the only next state a step answers is the same one. -/
theorem faultMarkIsNeverCleared : Obligations.FaultMarkIsNeverCleared := by
  intro s t m hm hstep
  rw [step_next_of_mark s t (by simp [hm]) hstep, hm]

/-- A step from a state without a fault mark records a BusError or HostProtocol and changes nothing else, or is an agent's turn. -/
theorem step_next_of_noMark (s t : State) (hmark : s.firstFault = none) (hstep : step s = .next t) :
    (∃ f, t = s.recordFault f) ∨ takeTurn Config.hostAddrBits s = .next t := by
  unfold step at hstep
  rw [machineStep_noFault _ s hmark] at hstep
  cases hturn : takeTurn Config.hostAddrBits s with
  | next u => rw [hturn] at hstep; cases hstep; exact .inr rfl
  | fault f => rw [hturn] at hstep; cases hstep; exact .inl ⟨f, rfl⟩
  | refused r => rw [hturn] at hstep; cases hstep

/-- Settles O36: the mark is set by a recorded fault, which changes nothing else, or by an Unwritten noted after the turn and the
operation are taken. -/
theorem faultingStepWritesNothing : Obligations.FaultingStepWritesNothing := by
  intro s t hmark hstep hset
  rcases step_next_of_noMark s t hmark hstep with ⟨f, rfl⟩ | hturn
  · simp
  · obtain ⟨hfault, hkept | ⟨u, prog, sched, rfl⟩⟩ := takeTurn_mark _ s t hturn
    · have : t.firstFault = s.firstFault := by simp only [State.firstFault, hfault, hkept]
      exact absurd (this.trans hmark) hset
    · simp

/-- The step of a host access that fails the checks sets FAULT to the fault they name and changes nothing else (R27, R52; log entry 3). -/
theorem step_access_error (s : State) (op : HostOp) (prog : List HostOp) (sched : List Agent) (kind : AccessKind) (off : BitVec 8)
    (size : Nat) (f : Fault) (hturn : HostTurn s op prog sched) (hop : IsAccess op kind off size)
    (hc : checkAccess kind off size ((s.setSchedule sched).setProg prog) = .error f) :
    step s = .next { s with fault := some f } := by
  obtain ⟨hmark, hprog, hsched⟩ := hturn
  rw [step_host_turn s op prog sched hmark hprog hsched, hostOp_access_error _ op kind off size _ f hop hc, absorbFault,
    s.recordFault_first f (s.firstFault_eq_none.mp hmark).2]

/-- The step of a host read of a data register without a value notes Unwritten, with the turn and the operation taken (R23, R52). -/
theorem step_read_unwritten (s : State) (prog : List HostOp) (sched : List Agent) (r : DataReg) (x : Nat)
    (hturn : HostTurn s (rdOp (.data r) x) prog sched) (hb : s.busy = false) (hv : s.holds r = false) :
    step s = .next { s with schedule := sched, prog := prog, unwritten := some (.read (Reg.data r).offset) } := by
  obtain ⟨hmark, hprog, hsched⟩ := hturn
  have hmark' : ((s.setSchedule sched).setProg prog).firstFault = none := hmark
  have hb' : ((s.setSchedule sched).setProg prog).busy = false := hb
  rw [step_host_turn s _ prog sched hmark hprog hsched, hostOp_rd_unwritten _ _ hb' r hv x, absorbFault, State.note_first _ _ hmark']
  rfl

/-- Settles O55: the checks of R52 name the fault of an access, and the host's turn records it. -/
theorem faultingAccessSetsFault : Obligations.FaultingAccessSetsFault := by
  intro s op prog sched hturn
  refine ⟨fun kind off size hop => ⟨fun hbad => ?busError, ?hostProtocol⟩, ?unwritten⟩
  case busError =>
    exact step_access_error s op prog sched kind off size _ hturn hop (checkAccess_busError kind off size _ hbad)
  case hostProtocol =>
    rintro rfl hmapped hbusy hother
    exact step_access_error s op prog sched kind off 4 _ hturn hop (checkAccess_hostProtocol kind off _ hmapped hbusy hother)
  case unwritten =>
    rintro r x rfl hidle hempty
    exact step_read_unwritten s prog sched r x hturn hidle hempty

end Sys2Proof.Machine
end

section
/-! The register window: what a read of an idle core returns, and the bytes of the window (spec/20_memory.md R51 to R53). -/

namespace Sys2Proof.Machine

open Sys2Proof.Claims

/-! ## Reads of an idle core -/

/-- A read of a register of an idle core that holds a value returns it (R23, R52). -/
theorem busRead_of_readReg (r : Reg) (v : Word) (s : State) (hb : s.busy = false) (hv : s.readReg r = some v) :
    busRead r.offset 4 s = .ok v := by
  simp [busRead, checkAccess_idle .read s hb r, hv]

/-- A read of a register of an idle core that holds no value is Unwritten, with the register's offset (R23, R52, R184). -/
theorem busRead_of_readReg_none (r : Reg) (s : State) (hb : s.busy = false) (hv : s.readReg r = none) :
    busRead r.offset 4 s = .error (.inl (.read r.offset)) := by
  simp [busRead, checkAccess_idle .read s hb r, hv]

/-- Settles O32: on an idle core the checks of a read pass, and what is left is whether the register holds a value. -/
theorem readsReturnRegisters : Obligations.ReadsReturnRegisters := by
  intro s hb
  refine ⟨busRead_of_readReg .cmd s.cmd s hb rfl, busRead_status s, fun r bits x => ⟨fun hv => ?holds, fun hv => ?unwritten⟩⟩
  case holds => exact ⟨busRead_data r s hb hv, hostOp_rd bits s hb r hv x⟩
  case unwritten =>
    have hnone : s.readReg (.data r) = none := by simp [State.readReg, hv]
    refine ⟨busRead_of_readReg_none (.data r) s hb hnone, fun hmark => ?_⟩
    rw [← s.note_first _ hmark]
    exact hostOp_rd_unwritten bits s hb r hv x

/-! ## The window's bytes -/

/-- Byte `k` of a word is the spec's bit field `[8k+7 : 8k]` (R9, R53). -/
theorem byteOf_eq_ofNat_chan (w : Word) (k : Nat) : byteOf w k = BitVec.ofNat 8 (chan w k) := by
  rw [← byteOf_toNat, BitVec.ofNat_toNat, BitVec.setWidth_eq]

/-- The window's byte at place `k` of a register is byte `k` of what the register returns (R51, R53). -/
theorem windowByte_offset (base : Nat) (s : State) (r : Reg) (k : Nat) (hk : k < 4) :
    windowByte base s (base + r.offset.toNat + k) = (s.readReg r).map fun v => byteOf v k := by
  have haligned := offset_aligned r
  have hlt := r.offset.isLt
  have hplace : (base + r.offset.toNat + k - base) / 4 * 4 = r.offset.toNat := by omega
  have hbyte : (base + r.offset.toNat + k - base) % 4 = k := by omega
  unfold windowByte
  rw [if_pos (by omega), hplace, hbyte, BitVec.ofNat_toNat, BitVec.setWidth_eq, regAt_offset]

/-- Settles O34: the aligned offset below a byte's address names its register, and the remainder its place in the register. -/
theorem windowIsLittleEndian : Obligations.WindowIsLittleEndian := by
  refine ⟨fun base s r v hv k hk => ?inside, fun base s a ha => ?outside⟩
  case inside => rw [windowByte_offset base s r k hk, hv, Option.map_some, byteOf_eq_ofNat_chan]
  case outside => exact if_neg (by omega)

end Sys2Proof.Machine
end

section
/-! A pending command (spec/20_memory.md R62, R65): what it computes depends on the register file only, and no host step reaches a
data register before it is performed. -/

namespace Sys2Proof.Machine

open Sys2Proof.Claims

/-- An operation leaves the same data registers whatever stands outside the register file (R95). -/
theorem afterPerform_cell_congr (op : Op) (s u : State) (h : u.regs = s.regs) (r : DataReg) :
    (afterPerform op u).cell r = (afterPerform op s).cell r := by
  have hcell : ∀ q : DataReg, u.cell q = s.cell q := fun q => by simp only [State.cell, h]
  have hvalue : ∀ q : DataReg, u.value q = s.value q := fun q => State.value_congr (hcell q)
  by_cases hr : r ∈ opWrites op
  · exact afterPerform_congr op u s (opResults_congr op u s (fun q _ => by rw [hvalue]) fun q _ _ => hvalue q) r hr
  · rw [(afterPerform_frame op u).regs r hr, (afterPerform_frame op s).regs r hr, hcell]

/-- With a command pending under the invariant the core is busy (R26). -/
theorem State.Inv.busy_of_pending {s : State} (h : s.Inv) {op : Op} (hp : s.pending = some op) : s.busy = true :=
  h.busyIffPending.mpr (by simp [hp])

/-- Settles O42: of the four things a step can be, a host write is barred by BUSY; the others are the three cases of the statement. -/
theorem pendingCommandIsAllOrNothing : Obligations.PendingCommandIsAllOrNothing := by
  intro s t op hinv hp hstep
  rcases step_cases s t hstep with hsame | ⟨u, -, hidle, -⟩ | ⟨u, op', hu, hp', hready, rfl⟩ | ⟨u, -, rfl⟩
  · exact .inl ⟨hsame.pending.trans hp, hsame.cmd, hsame.status, fun r => by simp only [State.cell, hsame.regs]⟩
  · simp [hinv.busy_of_pending hp] at hidle
  · obtain rfl : op' = op := Option.some.inj (by rw [← hp', hu.pending, hp])
    have hready' : s.Ready op' := by
      simpa only [State.Ready, State.holds, State.cell, hu.regs] using hready
    refine .inr (.inl ⟨hready', afterPerform_completed op' u, fun r hr => ?_, afterPerform op' s, ?_,
      afterPerform_cell_congr op' s u hu.regs⟩)
    · rw [(afterPerform_frame op' u).regs r hr]; simp only [State.cell, hu.regs]
    · rw [exec_instr, perform_ready op' s hready']
  · exact .inr (.inr ⟨rfl, statusReset_eq, fun r => by simp [State.holds]⟩)

end Sys2Proof.Machine
end

section
/-! The output buffer of a call (spec/20_memory.md R56): the offset of a block is eight times its number. -/

namespace Sys2Proof.Machine

/-- Block number `k` of the walk is stored at offset `8k` (R56, R163). -/
theorem Call.blockOffset_block (c : Call) (k : Nat) : c.blockOffset (c.bx k) (c.byRow k) = 8 * k := by
  have hx : c.bx k / 4 = k % (c.w / 4) := Nat.mul_div_cancel_left _ (by decide)
  have hy : c.byRow k / 4 = k / (c.w / 4) := Nat.mul_div_cancel_left _ (by decide)
  rw [Call.blockOffset, hx, hy, Nat.div_add_mod', Nat.mul_comm]

/-- The image is eight bytes for each block (R56, R166). -/
theorem Call.outLen_eq (c : Call) : c.outLen = 8 * c.blocks := Nat.mul_comm _ _

/-- Settles O50: a block's number is its row of blocks times the width in blocks, plus its column. -/
theorem outputOffsetsTile : Obligations.OutputOffsetsTile :=
  fun c => ⟨fun k _ => ⟨c.blockOffset_block k, c.blockOffset_block k⟩, c.outLen_eq⟩

end Sys2Proof.Machine
end

section
/-! Idle cores and the moves of the host that keep them idle. -/

namespace Sys2Proof.Claims

open Sys2Proof.Machine

variable {s : State}

/-- Replacing the program keeps a core idle. -/
theorem Idle.setProg (h : Idle s) (ops : List HostOp) : Idle (s.setProg ops) :=
  ⟨h.fault, h.pending, h.notBusy, h.schedule, h.memWf, h.tempsWf⟩

/-- A data register write keeps a core idle. -/
theorem Idle.put (h : Idle s) (r : DataReg) (v : Word) : Idle (s.put r v) :=
  ⟨h.fault, h.pending, h.notBusy, h.schedule, h.memWf, h.tempsWf⟩

/-- A list of data register writes keeps a core idle. -/
theorem Idle.putAll (h : Idle s) (ws : List (DataReg × Word)) : Idle (s.putAll ws) := by
  induction ws generalizing s with
  | nil => exact h
  | cons w ws ih => exact ih (h.put w.1 w.2)

/-- Setting a temporary keeps a core idle, the temporaries in canonical form. -/
theorem Idle.setTemp (h : Idle s) (x : Nat) (v : Word) : Idle (s.setTemp x v) :=
  ⟨h.fault, h.pending, h.notBusy, h.schedule, h.memWf, sparseSet_wf _ x v h.tempsWf⟩

/-- A word store keeps a core idle, host memory in canonical form. -/
theorem Idle.writeWord (h : Idle s) (a : Nat) (w : Word) : Idle (s.setMem (writeWord s.mem a w)) :=
  ⟨h.fault, h.pending, h.notBusy, h.schedule, writeWord_wf _ a w h.memWf, h.tempsWf⟩

end Sys2Proof.Claims

namespace Sys2Proof.Machine

open Sys2Proof.Claims

/-- Setting the program to what it is changes nothing. -/
theorem State.setProg_self (s : State) (ops : List HostOp) (h : s.prog = ops) : s.setProg ops = s := by
  subst h; rfl

/-- A temporary just set holds its value. -/
theorem State.setTemp_temp_self (s : State) (x : Nat) (v : Word) (h : sparseWf s.temps = true) : (s.setTemp x v).temp x = v := by
  rw [State.temp, State.setTemp_temps, sparseGet_set _ _ _ _ h, if_pos rfl]

/-- Setting a temporary leaves every other. -/
theorem State.setTemp_temp_other (s : State) (x y : Nat) (v : Word) (h : sparseWf s.temps = true) (hy : y ≠ x) :
    (s.setTemp x v).temp y = s.temp y := by
  rw [State.temp, State.setTemp_temps, sparseGet_set _ _ _ _ h, if_neg hy]; rfl

/-- The host's operation is the step of an idle core. -/
theorem step_idle {s : State} {op : HostOp} {rest : List HostOp} {t : State} (hi : Idle s) (hp : s.prog = op :: rest)
    (ht : hostOp Config.hostAddrBits op (s.setProg rest) = .next t) : step s = .next t :=
  step_host s op rest t hi.fault hp ⟨hi.schedule, hi.pending⟩ ht

end Sys2Proof.Machine
end

section
/-! The stages of `compress_one` (spec/47_host_image.md R165) as runs from an idle core: the pixels are loaded, the command is issued,
performed and polled for, and the block's words are read and stored. -/

namespace Sys2Proof.Machine

open Sys2Proof.Claims

/-- The host has gone on from `s` to `rest`: the core is idle in `t`, and memory and the last call's result are as in `s`. -/
structure IdleAt (s t : State) (rest : List HostOp) : Prop where
  idle : Idle t
  prog : t.prog = rest
  mem : t.mem = s.mem
  result : t.result = s.result

/-- What two stages keep, one after the other, their composition keeps. -/
theorem IdleAt.trans {s t u : State} {rest rest' : List HostOp} (h : IdleAt s t rest) (h' : IdleAt t u rest') : IdleAt s u rest' :=
  ⟨h'.idle, h'.prog, h'.mem.trans h.mem, h'.result.trans h.result⟩

/-! ## Loading -/

/-- A list of `wr` of registers the host may write takes a step for each and writes them in order (R52, R81). -/
theorem run_wrOps (ws : List (DataReg × Word)) (s : State) (rest : List HostOp) (hi : Idle s)
    (hw : ∀ w ∈ ws, (Reg.data w.1).readOnly = false) (hp : s.prog = ws.map (fun w => wrOp (.data w.1) w.2) ++ rest) :
    core.run ws.length s = .next ((s.setProg rest).putAll ws) := by
  induction ws generalizing s with
  | nil => rw [s.setProg_self rest hp]; rfl
  | cons w ws ih =>
    let u := (s.setProg (ws.map (fun w => wrOp (.data w.1) w.2) ++ rest)).put w.1 w.2
    have hstep : step s = .next u := step_idle hi hp (hostOp_wr _ _ (hi.setProg _).notBusy w.1 (hw w (by simp)) w.2)
    rw [List.length_cons, run_step _ s u hstep]
    exact ih u ((hi.setProg _).put _ _) (fun w' h => hw w' (by simp [h])) rfl

/-- The registers of a block's load are PIX0 to PIX15, each once. -/
theorem map_fst_zip_pixRegs (ps : List Word) (h : ps.length = 16) : (pixRegs.zip ps).map Prod.fst = pixRegs :=
  List.map_fst_zip (by simp [h, pixRegs])

/-- After a block's load PIX`i` holds pixel `i` (R22, R165). -/
theorem putAll_pixRegs_cell (s : State) (ps : List Word) (h : ps.length = 16) (i : Fin 16) :
    (s.putAll (pixRegs.zip ps)).cell (.pix i) = { val := ps[i.val], valid := true } := by
  refine State.putAll_cell_of_mem _ s (.pix i) ps[i.val] (by rw [map_fst_zip_pixRegs ps h]; decide) ?_
  exact List.mem_iff_getElem.mpr ⟨i.val, by simp [h, pixRegs], by simp [pixRegs]⟩

/-- A state whose PIX registers hold the words of a list has the colours of the list as its block (R22, R111). -/
theorem State.pixels_eq_map (s : State) (ps : List Word) (h : ps.length = 16) (hv : ∀ i : Fin 16, s.value (.pix i) = ps[i.val]) :
    s.pixels = ps.map rgbOfWord := by
  refine List.ext_getElem (by simp [State.pixels, pixRegs, h]) fun i hi _ => ?_
  have hi : i < 16 := by simpa [State.pixels, pixRegs] using hi
  simp [State.pixels, pixRegs, hv ⟨i, hi⟩]

/-- With a value in each PIX register COMPRESS has its operands (R28). -/
theorem ready_compress (s : State) (h : ∀ i : Fin 16, s.holds (.pix i) = true) : s.Ready .compress := by
  intro r hr
  obtain ⟨i, -, rfl⟩ := List.mem_map.mp hr
  exact h i

/-- `ldblk` takes 16 steps: the block's pixels are then the words' colours, and COMPRESS has its operands (R81, R165). -/
theorem run_ldblkOps (ps : List Word) (s : State) (rest : List HostOp) (hi : Idle s) (hlen : ps.length = 16)
    (hp : s.prog = ldblkOps ps ++ rest) :
    ∃ t : State, core.run 16 s = .next t ∧ IdleAt s t rest ∧ t.Ready .compress ∧ t.pixels = ps.map rgbOfWord := by
  have hwritable : ∀ w ∈ pixRegs.zip ps, (Reg.data w.1).readOnly = false := by
    intro w hw
    obtain ⟨i, -, hr⟩ := List.mem_map.mp (List.of_mem_zip hw).1
    rw [← hr]; rfl
  have hcount : (pixRegs.zip ps).length = 16 := by simp [hlen, pixRegs]
  have hcell := putAll_pixRegs_cell (s.setProg rest) ps hlen
  obtain ⟨-, -, -, -, -, hmem, -, hprog, hresult, -⟩ := State.putAll_fields (pixRegs.zip ps) (s.setProg rest)
  exact ⟨_, hcount ▸ run_wrOps _ s rest hi hwritable hp, ⟨(hi.setProg rest).putAll _, hprog, hmem, hresult⟩,
    ready_compress _ fun i => congrArg DataCell.valid (hcell i),
    State.pixels_eq_map _ ps hlen fun i => congrArg DataCell.val (hcell i)⟩

/-! ## A command -/

/-- `cmd` of a legal command at an idle core latches it (R81, R90). -/
theorem hostOp_cmd (bits : Nat) (op : Op) (cap : Bool) (s : State) (hb : s.busy = false) :
    hostOp bits (cmdOp (op.instr cap)) s = .next ((s.storeCmd (encode (op.instr cap))).latch op) := by
  have hd : decodeOp (encode (op.instr cap)) = some op := by cases op <;> cases cap <;> decide
  have hw : hostOp bits (cmdOp (op.instr cap)) s = writeReg .cmd (encode (op.instr cap)) s := busWrite_idle .cmd _ s hb
  rw [hw, writeReg, if_neg (by decide), issue_eq, hd]

/-- From an idle core with its operands written, `run` takes three steps with an empty schedule: issue, perform and a poll that ends. The
registers are then the command's, the core is idle, and memory and the last call's result are as they were (R81, R90, R92; log
entry 4). -/
theorem run_command (op : Op) (cap : Bool) (x : Nat) (s : State) (rest : List HostOp) (hi : Idle s) (hready : s.Ready op)
    (hp : s.prog = cmdOp (op.instr cap) :: .poll x :: rest) :
    ∃ t : State, core.run 3 s = .next t ∧ IdleAt s t rest ∧ ∀ r : DataReg, t.cell r = (afterPerform op s).cell r := by
  let issued := ((s.setProg (.poll x :: rest)).storeCmd (encode (op.instr cap))).latch op
  let performed := afterPerform op issued
  have hframe := (afterPerform_frame op issued).outside
  have hdone := afterPerform_completed op issued
  have hidle : Idle performed :=
    ⟨hframe.firstFault.trans hi.fault, hdone.pending, by simp [State.busy, performed, hdone.status, busyBit],
      hframe.schedule.trans hi.schedule, hframe.mem ▸ hi.memWf, hframe.temps ▸ hi.tempsWf⟩
  have hissue : step s = .next issued := step_idle hi hp (hostOp_cmd _ op cap _ hi.notBusy)
  have hperform : step issued = .next performed := step_core issued op hi.fault rfl hi.schedule hready
  have hpoll : step performed = .next ((performed.setProg rest).setTemp x 2) :=
    step_idle hidle hframe.prog (pollOnce_done x _ hdone.status)
  refine ⟨_, ?_, ⟨(hidle.setProg rest).setTemp x 2, rfl, hframe.mem, hframe.result⟩, afterPerform_cell_congr op s issued rfl⟩
  rw [run_step _ s _ hissue, run_step _ issued _ hperform, run_step _ performed _ hpoll]
  rfl

/-! ## Storing -/

/-- `rd` of a register that holds a value is the step of an idle core (R52, R81). -/
theorem step_rd {s : State} {r : DataReg} {x : Nat} {rest : List HostOp} (hi : Idle s) (hp : s.prog = rdOp (.data r) x :: rest)
    (hv : s.holds r = true) : step s = .next ((s.setProg rest).setTemp x (s.value r)) :=
  step_idle hi hp (hostOp_rd _ (s.setProg rest) hi.notBusy r hv x)

/-- `stblk` takes two steps: its temporaries hold BLK_LO's and BLK_HI's words (R81, R165; log entry 29). -/
theorem run_stblkOps (s : State) (rest : List HostOp) (hi : Idle s) (hlo : s.holds .blkLo = true) (hhi : s.holds .blkHi = true)
    (hp : s.prog = stblkOps tLo tHi ++ rest) :
    ∃ t : State, core.run 2 s = .next t ∧ IdleAt s t rest ∧ t.temp tLo = s.value .blkLo ∧ t.temp tHi = s.value .blkHi := by
  let low := (s.setProg (rdOp (.data .blkHi) tHi :: rest)).setTemp tLo (s.value .blkLo)
  let both := (low.setProg rest).setTemp tHi (s.value .blkHi)
  have hilow : Idle low := (hi.setProg _).setTemp _ _
  have h1 : step s = .next low := step_rd hi hp hlo
  have h2 : step low = .next both := step_rd hilow rfl hhi
  refine ⟨both, ?_, ⟨(hilow.setProg _).setTemp _ _, rfl, rfl, rfl⟩, ?_, State.setTemp_temp_self _ _ _ hilow.tempsWf⟩
  · rw [run_step _ s _ h1, run_step _ low _ h2]; rfl
  · calc both.temp tLo = low.temp tLo := State.setTemp_temp_other _ _ _ _ hilow.tempsWf (by decide)
      _ = s.value .blkLo := State.setTemp_temp_self _ _ _ hi.tempsWf

/-- Two stores take two steps, and write their words in order (R9, R165). -/
theorem run_memWrites (a b x y : Nat) (s : State) (rest : List HostOp) (hi : Idle s)
    (hp : s.prog = .memWrite a x :: .memWrite b y :: rest) :
    ∃ t : State, core.run 2 s = .next t ∧ Idle t ∧ t.prog = rest ∧ t.result = s.result ∧
      t.mem = writeWord (writeWord s.mem a (s.temp x)) b (s.temp y) := by
  let first := (s.setProg (.memWrite b y :: rest)).setMem (writeWord s.mem a (s.temp x))
  have hifirst : Idle first := (hi.setProg _).writeWord _ _
  have h1 : step s = .next first := step_idle hi hp (hostOp_memWrite _ _ _ _)
  have h2 : step first = .next _ := step_idle hifirst rfl (hostOp_memWrite _ _ _ _)
  refine ⟨_, ?_, (hifirst.setProg rest).writeWord _ _, rfl, rfl, rfl⟩
  rw [run_step _ s _ h1, run_step _ first _ h2]; rfl

end Sys2Proof.Machine
end

section
/-! One block of a call (spec/47_host_image.md R164, R165): what `compress_one` leaves, and that it is the block the statements describe. -/

namespace Sys2Proof.Machine

open Sys2Proof.Claims

/-- The first word of a compressed block: its endpoints (R143, R150). -/
def blockLoWord (ps : List Rgb) : Word := epWord (blockEp0 ps) (blockEp1 ps)

/-- Memory with the compressed block of some pixels stored at an address: the endpoints, then the indices (R54, R165). -/
def storeBlock (m : Memory) (a : Nat) (ps : List Rgb) : Memory :=
  writeWord (writeWord m a (blockLoWord ps)) (a + 4) (blockIndices ps)

/-- COMPRESS leaves the block's first word in BLK_LO (R150). -/
theorem afterPerform_compress_blkLo (s : State) : (afterPerform .compress s).value .blkLo = blockLoWord s.pixels :=
  afterPerform_value .compress s .blkLo (blockLoWord s.pixels) (List.mem_append_right _ List.mem_cons_self)

/-- COMPRESS leaves the block's indices in BLK_HI (R150). -/
theorem afterPerform_compress_blkHi (s : State) : (afterPerform .compress s).value .blkHi = blockIndices s.pixels :=
  afterPerform_value .compress s .blkHi (blockIndices s.pixels) (List.mem_append_right _ (List.mem_cons_of_mem _ List.mem_cons_self))

/-- `compress_one` of a block that can be extracted puts the block's operations next (R165). -/
theorem compressOne_of_extractBlock (c : Call) (bx byRow : Nat) (more : List HostOp) (s : State) (ps : List Word)
    (h : extractBlock c s.mem bx byRow = .ok ps) :
    compressOne c bx byRow more s = .next (s.pushProg (blockOps c bx byRow ps ++ more)) := by
  simp [compressOne, h]

/-- From an idle core with the operations of an extracted block next, 23 steps store its compressed words at its offset (R165; log
entry 4). -/
theorem run_blockOps (c : Call) (bx byRow : Nat) (ps : List Word) (rest : List HostOp) (s : State) (hi : Idle s) (hlen : ps.length = 16)
    (hp : s.prog = blockOps c bx byRow ps ++ rest) :
    ∃ t : State, core.run 23 s = .next t ∧ Idle t ∧ t.prog = rest ∧ t.result = s.result ∧
      t.mem = storeBlock s.mem (c.dst + c.blockOffset bx byRow) (ps.map rgbOfWord) := by
  simp only [blockOps, List.append_assoc] at hp
  obtain ⟨loaded, hloadRun, hload, hready, hpixels⟩ := run_ldblkOps ps s _ hi hlen hp
  obtain ⟨done, hdoneRun, hdone, hcell⟩ := run_command .compress c.cap tStatus loaded _ hload.idle hready hload.prog
  have hholds : ∀ r ∈ opWrites .compress, done.holds r = true := fun r hr =>
    (congrArg DataCell.valid (hcell r)).trans ((afterPerform_completed .compress loaded).written r hr)
  obtain ⟨read, hreadRun, hread, hlo, hhi⟩ :=
    run_stblkOps done _ hdone.idle (hholds .blkLo (by decide)) (hholds .blkHi (by decide)) hdone.prog
  have hkept := (hload.trans hdone).trans hread
  obtain ⟨t, hrun, hidle, hprog, hresult, hmem⟩ := run_memWrites _ _ tLo tHi read rest hread.idle hread.prog
  refine ⟨t, run_trans (run_trans (run_trans hloadRun hdoneRun) hreadRun) hrun, hidle, hprog, hresult.trans hkept.result, ?_⟩
  rw [hmem, hlo, hhi, State.value_congr (hcell .blkLo), State.value_congr (hcell .blkHi), afterPerform_compress_blkLo,
    afterPerform_compress_blkHi, hpixels, hkept.mem, storeBlock]

/-! ## The block of the statements -/

/-- Words with the same four bytes are equal (R9). -/
theorem eq_of_chan_eq (v w : Word) (h : ∀ k < 4, chan v k = chan w k) : v = w := by
  apply BitVec.eq_of_toNat_eq
  have h0 := h 0 (by decide); have h1 := h 1 (by decide); have h2 := h 2 (by decide); have h3 := h 3 (by decide)
  have hv := v.isLt; have hw := w.isLt
  simp only [chan, Nat.reducePow, Nat.reduceMul] at *
  omega

/-- The one word whose bytes stand at an address is the word read there (R9). -/
theorem eq_readWord_of_wordAt (m : Memory) (a : Nat) (w : Word) (h : WordAt m a w) : w = readWord m a :=
  eq_of_chan_eq _ _ fun k hk => by rw [h k hk, ← byteOf_readWord m a k hk, byteOf_toNat]

/-- The bytes of a stored block: its two words, the least significant byte of each first (R9, R54). -/
theorem readByte_storeBlock (m : Memory) (a : Nat) (ps : List Rgb) (h : m.wf = true) (j : Nat) (hj : j < 4) :
    (readByte (storeBlock m a ps) (a + j)).toNat = chan (blockLoWord ps) j ∧
      (readByte (storeBlock m a ps) (a + 4 + j)).toNat = chan (blockIndices ps) j := by
  have hwf := writeWord_wf m a (blockLoWord ps) h
  unfold storeBlock
  constructor
  · rw [readByte_writeWord_outside _ _ _ _ hwf (by omega), readByte_writeWord_inside _ _ _ _ h hj, byteOf_toNat]
  · rw [readByte_writeWord_inside _ _ _ _ hwf hj, byteOf_toNat]

/-- Storing a block leaves every byte outside its eight (R9). -/
theorem readByte_storeBlock_outside (m : Memory) (a b : Nat) (ps : List Rgb) (h : m.wf = true) (hb : b < a ∨ a + 8 ≤ b) :
    readByte (storeBlock m a ps) b = readByte m b := by
  rw [storeBlock, readByte_writeWord_outside _ _ _ _ (writeWord_wf m a _ h) (by omega), readByte_writeWord_outside _ _ _ _ h (by omega)]

/-- The words of the block at `(bx, by)` in memory, in raster order (R55, R164). -/
def Call.blockPixelWords (c : Call) (m : Memory) (bx byRow : Nat) : List Word := (c.blockAddrs bx byRow).map (readWord m)

/-- A block has 16 pixels (R164). -/
theorem Call.blockPixelWords_length (c : Call) (m : Memory) (bx byRow : Nat) : (c.blockPixelWords m bx byRow).length = 16 := by
  simp [Call.blockPixelWords, Call.blockAddrs]

/-- Pixel `i` of a block is the word at its offset in the pixel buffer (R55, R164). -/
theorem Call.blockPixelWords_getElem (c : Call) (m : Memory) (bx byRow i : Nat) (hi : i < (c.blockPixelWords m bx byRow).length) :
    (c.blockPixelWords m bx byRow)[i] = readWord m (c.src + pixelOffset c bx byRow i) := by
  simp only [Call.blockPixelWords, Call.blockAddrs, List.getElem_map, List.getElem_range]
  rfl

/-- A block of a call that passes its checks is extracted whole (R162, R164). -/
theorem extractBlock_block (c : Call) (m : Memory) (k : Nat) (hc : callError c = none) (hk : k < c.blocks) :
    extractBlock c m (c.bx k) (c.byRow k) = .ok (c.blockPixelWords m (c.bx k) (c.byRow k)) := by
  obtain ⟨-, -, -, -, hlen⟩ := callError_none c hc
  refine readPixels_ok c m _ fun a ha => ?_
  have := blockAddrs_bounds c k hc hk a ha
  omega

/-- The pixels of a block of a call that passes its checks lie in the pixel buffer (R164). -/
theorem pixelOffset_bound (c : Call) (k i : Nat) (hc : callError c = none) (hk : k < c.blocks) (hi : i < 16) :
    pixelOffset c (c.bx k) (c.byRow k) i + 4 ≤ c.need := by
  have := blockAddrs_bounds c k hc hk (c.src + pixelOffset c (c.bx k) (c.byRow k) i)
    (List.mem_map.mpr ⟨i, List.mem_range.mpr hi, rfl⟩)
  omega

/-- Memory with a block's compressed pixels stored at its place has that block stored, in the statements' sense (R54, R165). -/
theorem blockStored_of_mem (c : Call) (m : Memory) (k : Nat) (t : State) (h : m.wf = true)
    (ht : t.mem = storeBlock m (c.dst + 8 * k) ((c.blockPixelWords m (c.bx k) (c.byRow k)).map rgbOfWord)) : BlockStored c m k t := by
  intro u hu
  have hpixels : u.pixels = (c.blockPixelWords m (c.bx k) (c.byRow k)).map rgbOfWord := by
    refine u.pixels_eq_map _ (c.blockPixelWords_length ..) fun i => ?_
    rw [c.blockPixelWords_getElem]
    exact eq_readWord_of_wordAt m _ _ (hu i).2
  refine ⟨_, (exec_instr .compress c.cap u).trans (perform_ready _ u (ready_compress u fun i => (hu i).1)), fun j hj => ?_⟩
  rw [ht, afterPerform_compress_blkLo, afterPerform_compress_blkHi, hpixels]
  exact readByte_storeBlock m _ _ h j hj

/-- That a block stands stored depends on its eight output bytes only (R54, R56). -/
theorem blockStored_of_same_output {c : Call} {m : Memory} {k : Nat} {t u : State} (h : BlockStored c m k t)
    (heq : ∀ a, c.dst + 8 * k ≤ a → a < c.dst + 8 * k + 8 → readByte u.mem a = readByte t.mem a) : BlockStored c m k u := by
  intro v hv
  obtain ⟨w, hw, hbytes⟩ := h v hv
  refine ⟨w, hw, fun j hj => ?_⟩
  rw [heq _ (by omega) (by omega), heq _ (by omega) (by omega)]
  exact hbytes j hj

/-- Which bytes a block must have depends on the bytes of the pixel buffer only (R164). -/
theorem blockStored_of_same_pixels {c : Call} {m m' : Memory} {k : Nat} {t : State} (h : BlockStored c m k t) (hc : callError c = none)
    (hk : k < c.blocks) (heq : ∀ a, c.src ≤ a → a < c.src + c.need → readByte m' a = readByte m a) : BlockStored c m' k t := by
  intro u hu
  refine h u fun i => ⟨(hu i).1, fun j hj => ?_⟩
  have hbound := pixelOffset_bound c k i hc hk i.isLt
  rw [← heq _ (by omega) (by simp only [Call.bx, Call.byRow, Call.w] at hbound; omega)]
  exact (hu i).2 j hj

/-- From an idle core with `compress_one` of block `k` of a checked call next, 24 steps store the block's eight bytes and change no other,
with the core idle again and `more` before the rest of the program (R165; log entry 4). -/
theorem run_block (c : Call) (k : Nat) (op : HostOp) (more rest : List HostOp) (s : State) (hi : Idle s) (hc : callError c = none)
    (hk : k < c.blocks) (hp : s.prog = op :: rest)
    (hop : ∀ u, hostOp Config.hostAddrBits op u = compressOne c (c.bx k) (c.byRow k) more u) :
    ∃ t : State, core.run 24 s = .next t ∧ Idle t ∧ t.prog = more ++ rest ∧ t.result = s.result ∧ BlockStored c s.mem k t ∧
      ∀ a, (a < c.dst + 8 * k ∨ c.dst + 8 * k + 8 ≤ a) → readByte t.mem a = readByte s.mem a := by
  let words := c.blockPixelWords s.mem (c.bx k) (c.byRow k)
  let extracted := s.setProg (blockOps c (c.bx k) (c.byRow k) words ++ (more ++ rest))
  have hstep : step s = .next extracted := by
    refine step_idle hi hp ?_
    rw [hop, compressOne_of_extractBlock c _ _ more (s.setProg rest) words (extractBlock_block c s.mem k hc hk)]
    simp only [State.pushProg, State.setProg, extracted, List.append_assoc]
  obtain ⟨t, hrun, hidle, hprog, hresult, hmem⟩ :=
    run_blockOps c _ _ words (more ++ rest) extracted (hi.setProg _) (c.blockPixelWords_length ..) rfl
  rw [c.blockOffset_block] at hmem
  refine ⟨t, (run_step 23 s extracted hstep).trans hrun, hidle, hprog, hresult, blockStored_of_mem c s.mem k t hi.memWf hmem,
    fun a ha => ?_⟩
  rw [hmem]
  exact readByte_storeBlock_outside _ _ _ _ hi.memWf ha

/-! ## Blocks in any order -/

/-- No byte of the pixel buffer is one of an output block's when the two buffers lie apart (R50, R63). -/
theorem pixel_outside_outputBlock (c : Call) (k a : Nat) (hk : k < c.blocks) (hapart : c.src + c.need ≤ c.dst ∨ c.dst + c.outLen ≤ c.src)
    (hlo : c.src ≤ a) (hhi : a < c.src + c.need) : a < c.dst + 8 * k ∨ c.dst + 8 * k + 8 ≤ a := by
  rw [c.outLen_eq] at hapart
  omega

/-- Settles O52, by induction on the list: the first block leaves the pixels as they were, and the blocks after it leave its bytes, or write
the same ones again. -/
theorem blocksInAnyOrder : Obligations.BlocksInAnyOrder := by
  intro c ks s rest hi hc hks hp hapart
  induction ks generalizing s with
  | nil => exact ⟨s, rfl, hi, hp, by simp, fun a _ => rfl⟩
  | cons k ks ih =>
    have hk := hks k (by simp)
    obtain ⟨u, hurun, huidle, huprog, -, hublock, huframe⟩ :=
      run_block c k _ [] _ s hi hc hk hp fun _ => rfl
    obtain ⟨t, htrun, htidle, htprog, htblocks, htframe⟩ := ih u huidle (fun j hj => hks j (by simp [hj])) huprog
    have hpixels : ∀ a, c.src ≤ a → a < c.src + c.need → readByte s.mem a = readByte u.mem a :=
      fun a hlo hhi => (huframe a (pixel_outside_outputBlock c k a hk hapart hlo hhi)).symm
    have hlater : ∀ j ∈ ks, BlockStored c s.mem j t :=
      fun j hj => blockStored_of_same_pixels (htblocks j hj) hc (hks j (by simp [hj])) hpixels
    have hfirst : BlockStored c s.mem k t := by
      by_cases hrepeat : k ∈ ks
      · exact hlater k hrepeat
      · refine blockStored_of_same_output hublock fun a hlo hhi => htframe a fun j hj => ?_
        have hne : j ≠ k := fun h => hrepeat (h ▸ hj)
        omega
    refine ⟨t, ?_, htidle, htprog, List.forall_mem_cons.mpr ⟨hfirst, hlater⟩, fun a ha => ?_⟩
    · rw [List.length_cons, Nat.mul_succ, Nat.add_comm]
      exact run_trans hurun htrun
    · obtain ⟨hfirst, hothers⟩ := List.forall_mem_cons.mp ha
      rw [htframe a hothers, huframe a hfirst]

end Sys2Proof.Machine
end

section
/-! The decoder as R78 states it on numbers: which words select an operation, its two words and its match and mask pair, and which words are
Illegal (spec/30_encoding.md R75 to R80). -/

namespace Sys2Proof.Machine

open Sys2Proof.Claims

/-! ## The fields of a command word -/

/-- RSVD is bits [31:4] (R75). -/
theorem rsvdField_toNat (w : Word) : (rsvdField w).toNat = w.toNat / 16 := by
  rw [rsvdField, BitVec.extractLsb'_toNat, Nat.shiftRight_eq_div_pow]
  have := w.isLt
  omega

/-- OP is bits [2:0] (R75). -/
theorem opField_toNat (w : Word) : (opField w).toNat = w.toNat % 8 := by
  rw [opField, BitVec.extractLsb'_toNat, Nat.shiftRight_zero]

/-- A word under the mask 0xFFFFFFF7 keeps RSVD and OP and has CAP cleared (R78). -/
theorem and_mask_eq_fields (w : Word) : w &&& 0xFFFFFFF7 = rsvdField w ++ 0#1 ++ opField w := by
  refine BitVec.eq_of_getLsbD_eq fun i hi => ?_
  have hmask : (0xFFFFFFF7 : Word).getLsbD i = !decide (i = 3) := by revert i; decide
  simp only [BitVec.getLsbD_and, hmask, BitVec.getLsbD_append, rsvdField, opField, BitVec.getLsbD_extractLsb', BitVec.getLsbD_zero]
  by_cases hop : i < 3
  · simp [hop, show i ≠ 3 by omega]
  · by_cases hcap : i = 3
    · simp [hcap]
    · simp [hop, hcap, show ¬ i - 3 < 1 by omega, show i - 3 - 1 < 28 by omega, show 4 + (i - 3 - 1) = i by omega]

/-- A word under the mask 0xFFFFFFF7, as a number (R78). -/
theorem and_mask_toNat (w : Word) : (w &&& 0xFFFFFFF7).toNat = w.toNat / 16 * 16 + w.toNat % 8 := by
  have hop := (opField w).isLt
  rw [and_mask_eq_fields, ← rsvdField_toNat, ← opField_toNat]
  change BitVec.toNat (w := 28 + 1 + 3) (rsvdField w ++ 0#1 ++ opField w) = _
  rw [BitVec.toNat_append, BitVec.toNat_append, ← Nat.shiftLeft_add_eq_or_of_lt hop]
  simp only [BitVec.toNat_zero, Nat.or_zero, Nat.shiftLeft_eq]
  omega

/-! ## OP codes -/

/-- The OP codes of the operations are 0 to 5 (R76). -/
theorem exists_opNumber_eq_iff (n : Nat) : (∃ op, opNumber op = n) ↔ n < 6 := by
  constructor
  · rintro ⟨op, rfl⟩
    cases op <;> decide
  · intro hn
    interval_cases n
    exacts [⟨.compress, rfl⟩, ⟨.bbox, rfl⟩, ⟨.quant, rfl⟩, ⟨.palette, rfl⟩, ⟨.classify, rfl⟩, ⟨.serialize, rfl⟩]

/-- The fields select operation `op` exactly when OP is its code, whatever CAP is (R76, R78). -/
theorem instrOfFields_op?_eq_some_iff (o : BitVec 3) (cap : Bool) (op : Op) :
    (instrOfFields o cap).op? = some op ↔ o.toNat = opNumber op := by
  unfold instrOfFields
  split <;> cases op <;> simp_all [Instr.op?, opNumber]

/-! ## The words of an operation and the Illegal words -/

/-- A word selects operation `op` exactly when RSVD is 0 and OP is its code (R78). -/
theorem decodeOp_eq_some_iff (w : Word) (op : Op) : decodeOp w = some op ↔ w.toNat / 16 = 0 ∧ w.toNat % 8 = opNumber op := by
  rw [← rsvdField_toNat, ← opField_toNat, ← instrOfFields_op?_eq_some_iff _ (capField w)]
  by_cases hrsvd : rsvdField w = 0
  · have hrow : decode w = .ok (instrOfFields (opField w) (capField w)) := if_neg (not_not.mpr hrsvd)
    simp [decodeOp_ok w _ hrow, hrsvd]
  · have herror : decode w = .error .rsvdNonzero := if_pos hrsvd
    have hne : (rsvdField w).toNat ≠ 0 := fun h => hrsvd (BitVec.eq_of_toNat_eq h)
    simp [decodeOp, herror, hne]

/-- A word is Illegal exactly when RSVD is not 0 or OP is a reserved code (R78, R79). -/
theorem decodeOp_eq_none_iff (w : Word) : decodeOp w = none ↔ w.toNat / 16 ≠ 0 ∨ w.toNat % 8 = 6 ∨ w.toNat % 8 = 7 := by
  have hsome : (∃ op, decodeOp w = some op) ↔ w.toNat / 16 = 0 ∧ w.toNat % 8 < 6 := by
    simp only [decodeOp_eq_some_iff, exists_and_left, eq_comm (a := w.toNat % 8), exists_opNumber_eq_iff]
  rw [← Option.not_isSome_iff_eq_none, Option.isSome_iff_exists, hsome]
  omega

/-- An operation has two words: its code, and its code with CAP set (R78). -/
theorem decodeOp_eq_some_iff_words (w : Word) (op : Op) :
    decodeOp w = some op ↔ w.toNat = opNumber op ∨ w.toNat = opNumber op + 8 := by
  have hcode : opNumber op < 6 := (exists_opNumber_eq_iff _).mp ⟨op, rfl⟩
  rw [decodeOp_eq_some_iff]
  omega

/-- An operation's match is its code and its mask is 0xFFFFFFF7 (R78). -/
theorem decodeOp_eq_some_iff_mask (w : Word) (op : Op) :
    decodeOp w = some op ↔ w &&& 0xFFFFFFF7 = BitVec.ofNat 32 (opNumber op) := by
  have hcode : opNumber op < 6 := (exists_opNumber_eq_iff _).mp ⟨op, rfl⟩
  rw [decodeOp_eq_some_iff, ← BitVec.toNat_inj, and_mask_toNat, BitVec.toNat_ofNat]
  omega

/-- Settles O3: RSVD and OP decide the decoder's answer; the two words and the match and mask pair are these two fields as arithmetic. -/
theorem decodeIsTotal : Obligations.DecodeIsTotal := fun w =>
  ⟨decodeOp_eq_none_iff w, fun op =>
    ⟨decodeOp_eq_some_iff w op, decodeOp_eq_some_iff_words w op, decodeOp_eq_some_iff_mask w op⟩⟩

/-- Settles O1: the table's rows by evaluation of the decoder, the illegal words by R78's condition. -/
theorem commandWordsDecode : Obligations.CommandWordsDecode := by
  unfold Obligations.CommandWordsDecode
  simp only [decodeOp_eq_none_iff]
  decide

end Sys2Proof.Machine
end

section
/-! The phases of a command (spec/40_command.md R90 to R95): its issue by a CMD write, its perform step on the core's turn, and what its
results depend on. -/

namespace Sys2Proof.Machine

open Sys2Proof.Claims

/-! ## Issue -/

/-- A write to CMD of an idle core issues the word (R52, R90). -/
theorem busWrite_cmd (w : Word) (s : State) (hb : s.busy = false) : busWrite 0x00 4 w s = issue w s :=
  busWrite_idle .cmd w s hb

/-- `wr CMD` at an idle core issues the word (R81, R90). -/
theorem hostOp_wr_cmd (bits : Nat) (w : Word) (s : State) (hb : s.busy = false) : hostOp bits (wrOp .cmd w) s = issue w s :=
  busWrite_cmd w s hb

/-- Settles O11: CMD stands at offset 0, so the write passes the checks of an idle core and is an issue, which the word decides. -/
theorem issueOrReject : Obligations.IssueOrReject := by
  intro w s hidle
  rw [busWrite_cmd w s hidle, issue_eq]
  refine ⟨fun op hlegal => ?_, fun hillegal => ?_⟩
  · rw [hlegal, ← statusBusy_eq]; rfl
  · rw [hillegal, ← statusIllegal_eq]; rfl

/-! ## The meaning of an instruction -/

/-- The meaning of an instruction that selects an operation is that operation's perform step (R92). -/
theorem exec_of_op?_eq_some (i : Instr) (op : Op) (s : State) (h : i.op? = some op) : exec i s = perform op (opResults op) s := by
  cases i <;> cases h <;> rfl

/-- The meaning of an instruction that selects none is the rejection (R91, R152). -/
theorem exec_of_op?_eq_none (i : Instr) (s : State) (h : i.op? = none) : exec i s = .next s.reject := by
  cases i <;> cases h <;> rfl

/-- The first operand without a value, as the statements name it, is the one the perform step finds (R93). -/
theorem firstMissing_of_firstWithout {op : Op} {s : State} {r : DataReg} (h : FirstWithout op s r) :
    s.firstMissing (opReads op) = some r := by
  obtain ⟨before, after, hreads, hbefore, hempty⟩ := h
  exact List.find?_eq_some_iff_append.mpr ⟨by simp [hempty], before, after, hreads, fun q hq => by simp [hbefore q hq]⟩

/-- With an operand missing and no model fault raised before, the perform step changes FAULT only (R27, R93). -/
theorem perform_firstWithout {op : Op} {s : State} {r : DataReg} (h : FirstWithout op s r) (hmark : s.firstFault = none) :
    perform op (opResults op) s = .next { s with unwritten := some (.operand op r) } := by
  rw [perform, firstMissing_of_firstWithout h, ← s.note_first (.operand op r) hmark]; rfl

/-! ## The core's turn -/

/-- A perform step raises no fault that the step would have to record (R92, R93). -/
theorem absorbFault_perform (op : Op) (s u : State) :
    absorbFault u (perform op (opResults op) s) = perform op (opResults op) s := by
  obtain ⟨t, ht⟩ := perform_answers op s
  rw [ht]; rfl

/-- The step on the core's turn, by the schedule or by an empty one, is the pending operation's perform step, with the turn taken
(R92, R202; log entry 4). -/
theorem step_core_turn (s : State) (op : Op) (sched : List Agent) (hmark : s.firstFault = none) (hp : s.pending = some op)
    (hs : s.schedule = .core :: sched ∨ (s.schedule = [] ∧ sched = [])) :
    step s = perform op (opResults op) (s.setSchedule sched) := by
  have hturn : takeTurn Config.hostAddrBits s = coreTurn (s.setSchedule sched) := by
    rcases hs with hs | ⟨hs, rfl⟩
    · simp only [takeTurn, hs, agentTurn]
    · have hself : s.setSchedule [] = s := by rw [State.setSchedule, ← hs]
      simp only [takeTurn, hs, defaultAgent, hp, agentTurn, hself]
  rw [step, machineStep_noFault _ s hmark, hturn, coreTurn_pending (s.setSchedule sched) op hp, absorbFault_perform]

/-- Settles O14: the step and the command's meaning are one perform step, which completes or names the first operand missing. -/
theorem performStep : Obligations.PerformStep := by
  intro s op rest hmark hp hs
  have hstep := step_core_turn s op rest hmark hp (.inl hs)
  have hexec := exec_instr op (capField s.cmd) (s.setSchedule rest)
  refine ⟨fun hready => ?_, fun r hmissing => ?_⟩
  · have hnext := perform_ready op (s.setSchedule rest) hready
    exact ⟨_, hstep.trans hnext, hexec.trans hnext, afterPerform_completed op _, afterPerform_frame op _⟩
  · have hmissing' : FirstWithout op (s.setSchedule rest) r := hmissing
    exact ⟨hstep.trans (perform_firstWithout hmissing' hmark), hexec.trans hstep.symm⟩

/-- Settles O12: the step is the perform step of the pending operation, and so is the meaning of every instruction that selects it. -/
theorem stepRunsTheInstruction : Obligations.StepRunsTheInstruction := by
  intro s i rest hmark _ hwf hp hs
  obtain ⟨op, hop⟩ := Option.isSome_iff_exists.mp hwf
  rw [step_core_turn s op rest hmark (hp.trans hop) hs, exec_of_op?_eq_some i op _ hop]; rfl

/-! ## Results -/

/-- Settles O16: both completions write the same words, since an operation's results are read from its operands. -/
theorem resultsDependOnOperandsOnly : Obligations.ResultsDependOnOperandsOnly := by
  intro op cap cap' s s' t t' hagree hready hready' hexec hexec'
  rw [exec_instr] at hexec hexec'
  rw [perform_next_ready op s t hready hexec, perform_next_ready op s' t' hready' hexec']
  have hresults : opResults op s = opResults op s' :=
    opResults_congr op s s' (fun r hr => by rw [hagree r hr]) fun r hr _ => hagree r hr
  exact afterPerform_congr op s s' hresults

/-! ## A placed command -/

/-- An instruction of the opcode table is what its word decodes to (R75, R78). -/
theorem decode_of_decodeTableWord {nbits w : Nat} {i : Instr} (h : decodeTableWord nbits w = some i) :
    decode (BitVec.ofNat 32 (w % 2 ^ nbits)) = .ok i := by
  unfold decodeTableWord at h
  split at h
  · cases h
  · split at h <;> cases h
    assumption

/-- A placed legal word runs at once: the step is its operation's perform step, from CMD with BUSY (R90, R92; log entry 5). -/
theorem step_placeCommand_legal (s : State) (w : Word) (op : Op) (hmark : s.firstFault = none) (h : decodeOp w = some op) :
    step (s.placeCommand w) = perform op (opResults op) ((s.storeCmd w).latch op) := by
  have hplaced : s.placeCommand w = ((s.storeCmd w).latch op).setSchedule (.core :: s.schedule) := by
    simp only [State.placeCommand, h]; rfl
  rw [hplaced]
  exact step_core_turn _ op s.schedule hmark rfl (.inl rfl)

/-- A placed illegal word is rejected at once: the step is the host's CMD write (R91; log entry 5). -/
theorem step_placeCommand_illegal (s : State) (w : Word) (hmark : s.firstFault = none) (h : decodeOp w = none) :
    step (s.placeCommand w) = .next (s.storeCmd w).reject := by
  have hplaced : s.placeCommand w =
      { s with status := statusReset, pending := none, prog := wrOp .cmd w :: s.prog, schedule := .host :: s.schedule } := by
    simp only [State.placeCommand, h]
  rw [hplaced]
  refine Eq.trans (step_host_turn _ (wrOp .cmd w) s.prog s.schedule hmark rfl (.inl rfl)) ?_
  rw [hostOp_wr_cmd, issue_eq, h]
  · rfl
  · exact (by decide : busyBit statusReset = false)

/-- Settles O13: the placed word is the table's, so the decoder's instruction says whether the step performs or rejects. -/
theorem placedWordRuns : Obligations.PlacedWordRuns := by
  intro s nbits w i hmark htable
  have hdecode := decodeOp_ok _ i (decode_of_decodeTableWord htable)
  refine ⟨fun op hop => ?_, fun hop => ?_⟩
  · rw [State.withFetchWord, step_placeCommand_legal s _ op hmark (hdecode.trans hop), exec_of_op?_eq_some i op _ hop,
      ← statusBusy_eq]
    rfl
  · rw [State.withFetchWord, step_placeCommand_illegal s _ hmark (hdecode.trans hop), exec_of_op?_eq_none i _ hop]
    rfl

end Sys2Proof.Machine
end

section
/-! An operation's rule (spec/40_command.md R97): what every one of the six has in common, from the laws of the perform step. -/

namespace Sys2Proof.Machine

open Sys2Proof.Claims

/-- An operation meets its rule when its completed state holds the rule's result: completion, frame and Unwritten are those of the
perform step that all operations share (R28, R92, R93). -/
theorem operationRule_of_afterPerform {op : Op} {word capWord : Word} {result : State → State → Prop}
    (hword : encode (op.instr false) = word) (hcapWord : encode (op.instr true) = capWord)
    (hresult : ∀ s : State, result s (afterPerform op s)) : OperationRule op.instr op word capWord result := by
  refine ⟨hword, hcapWord, fun cap s => ?_⟩
  rw [exec_instr]
  exact ⟨fun hready =>
      ⟨_, perform_ready op s hready, afterPerform_completed op s, afterPerform_frame op s, hresult s⟩,
    fun r hmissing hmark => perform_firstWithout hmissing hmark⟩

end Sys2Proof.Machine
end

section
/-! The quantizer (spec/41_quantizer.md): packing as a number, the round trips of R103, and QUANT's rule (R104). -/

namespace Sys2Proof.Machine

open Sys2Proof.Claims

/-! ## QUANT -/

/-- A field of a field is a field, when it does not reach past the outer one. -/
theorem extractLsb'_extractLsb' {n : Nat} (x : BitVec n) (start len start' len' : Nat) (h : start' + len' ≤ len) :
    (x.extractLsb' start len).extractLsb' start' len' = x.extractLsb' (start + start') len' := by
  refine BitVec.eq_of_getLsbD_eq fun i hi => ?_
  simp [hi, show start' + i < len by omega, Nat.add_assoc]

/-- The endpoint that the statements read off an RGB888 word is the packed colour of that word (R22, R100). -/
theorem packed_eq_pack565 (w : Word) : packed w = pack565 (rgbOfWord w) := by
  rw [pack565_eq, packed, rgbOfWord, extractLsb'_extractLsb' w 0 8 3 5 (by decide), extractLsb'_extractLsb' w 8 8 2 6 (by decide),
    extractLsb'_extractLsb' w 16 8 3 5 (by decide)]

/-- QUANT leaves EP with the endpoints of the two corners (R104). -/
theorem afterPerform_quant_ep (s : State) :
    (afterPerform .quant s).value .ep = quantize (rgbOfWord (s.value .maxc)) (rgbOfWord (s.value .minc)) :=
  afterPerform_value .quant s .ep _ (List.mem_singleton_self _)

/-- Settles O6: completion, frame and Unwritten are the perform step's; what is QUANT's own is the endpoint word it writes. -/
theorem quantRule : Obligations.QuantRule := by
  refine operationRule_of_afterPerform (op := .quant) (by decide) (by decide) fun s => ?_
  rw [EndpointsOf, afterPerform_quant_ep, quantize, epWord, packed_eq_pack565, packed_eq_pack565]

/-! ## Packing and re-expanding, as numbers -/

/-- A packed colour as a number: each channel without its low bits, in its field (R100). -/
theorem pack565_toNat (c : Rgb) : (pack565 c).toNat = c.r.toNat / 8 * 2048 + c.g.toNat / 4 * 32 + c.b.toNat / 8 := by
  have hr := c.r.isLt
  have hg := c.g.isLt
  have hb := c.b.isLt
  rw [pack565_eq]
  change BitVec.toNat (w := 5 + 6 + 5) (c.r.extractLsb' 3 5 ++ c.g.extractLsb' 2 6 ++ c.b.extractLsb' 3 5) = _
  rw [BitVec.toNat_append, BitVec.toNat_append, ← Nat.shiftLeft_add_eq_or_of_lt (BitVec.isLt _),
    ← Nat.shiftLeft_add_eq_or_of_lt (BitVec.isLt _)]
  simp only [BitVec.extractLsb'_toNat, Nat.shiftRight_eq_div_pow, Nat.shiftLeft_eq]
  omega

/-- The round trip of a colour keeps the top bits of each channel and repeats its topmost ones below them (R101, R103). -/
theorem unpack565_pack565_toNat (c : Rgb) :
    (unpack565 (pack565 c)).r.toNat = c.r.toNat / 8 * 8 + c.r.toNat / 32 ∧
    (unpack565 (pack565 c)).g.toNat = c.g.toNat / 4 * 4 + c.g.toNat / 64 ∧
    (unpack565 (pack565 c)).b.toNat = c.b.toNat / 8 * 8 + c.b.toNat / 32 := by
  have hr := c.r.isLt
  have hg := c.g.isLt
  have hb := c.b.isLt
  rw [unpack565_r, unpack565_g, unpack565_b, pack565_toNat]
  omega

/-- A byte under the mask 0xF8 with its top three bits mirrored below, as a number (R101). -/
theorem maskF8_or_top_toNat (x : Byte) : ((x &&& 0xF8) ||| (x >>> 5)).toNat = x.toNat / 8 * 8 + x.toNat / 32 := by
  revert x; decide

/-- A byte under the mask 0xFC with its top two bits mirrored below, as a number (R101). -/
theorem maskFC_or_top_toNat (x : Byte) : ((x &&& 0xFC) ||| (x >>> 6)).toNat = x.toNat / 4 * 4 + x.toNat / 64 := by
  revert x; decide

/-! ## The items of R103 -/

/-- Packing undoes re-expansion: the bits it drops from a channel are those that replication added (R103). -/
theorem pack565_unpack565 (p : Endpoint) : pack565 (unpack565 p) = p := by
  have hp := p.isLt
  have hfive : ∀ x < 32, (x * 8 + x / 4) / 8 = x := fun x hx => by omega
  have hsix : ∀ x < 64, (x * 4 + x / 16) / 4 = x := fun x hx => by omega
  apply BitVec.eq_of_toNat_eq
  rw [pack565_toNat, unpack565_r, unpack565_g, unpack565_b, hfive _ (by omega), hsix _ (by omega), hfive _ (by omega)]
  omega

/-- The round trip of a colour is its masked bits with the top ones mirrored (R101, R103). -/
theorem unpack565_pack565 (c : Rgb) : unpack565 (pack565 c) =
    ⟨(c.r &&& 0xF8) ||| (c.r >>> 5), (c.g &&& 0xFC) ||| (c.g >>> 6), (c.b &&& 0xF8) ||| (c.b >>> 5)⟩ := by
  obtain ⟨hr, hg, hb⟩ := unpack565_pack565_toNat c
  rw [← maskF8_or_top_toNat] at hr hb
  rw [← maskFC_or_top_toNat] at hg
  exact congr (congr (congrArg Rgb.mk (BitVec.eq_of_toNat_eq hr)) (BitVec.eq_of_toNat_eq hg)) (BitVec.eq_of_toNat_eq hb)

/-- The round trip moves red and blue by at most 7 and green by at most 3 (R103). -/
theorem gap_unpack565_pack565_le (c : Rgb) :
    gap (unpack565 (pack565 c)).r.toNat c.r.toNat ≤ 7 ∧ gap (unpack565 (pack565 c)).g.toNat c.g.toNat ≤ 3 ∧
    gap (unpack565 (pack565 c)).b.toNat c.b.toNat ≤ 7 := by
  have hr := c.r.isLt
  have hg := c.g.isLt
  have hb := c.b.isLt
  obtain ⟨er, eg, eb⟩ := unpack565_pack565_toNat c
  rw [er, eg, eb]
  unfold gap
  omega

/-- Packing is monotone in the three channels together (R103). -/
theorem pack565_le_pack565 (a b : Rgb) (hr : a.r ≤ b.r) (hg : a.g ≤ b.g) (hb : a.b ≤ b.b) : pack565 a ≤ pack565 b := by
  rw [BitVec.le_def] at hr hg hb ⊢
  rw [pack565_toNat, pack565_toNat]
  omega

/-- Settles O20: packing and re-expansion are divisions and multiplications by powers of 2, on which the items are linear arithmetic. -/
theorem quantizerRoundTrip : Obligations.QuantizerRoundTrip := by
  refine ⟨pack565_unpack565, unpack565_pack565, ?grey, gap_unpack565_pack565_le, pack565_le_pack565, ?ends⟩
  case grey => decide
  case ends => decide

end Sys2Proof.Machine
end

section
/-! The channels of a colour as one family, so that a rule stated per channel is proved once (spec/00_scope.md R9, spec/10_state.md R22):
the channels of a word, of a box corner and of a colour computed per channel. -/

namespace Sys2Proof.Machine

open Sys2Proof.Claims

/-- Channel R, G, B of a colour for `k` = 0, 1, 2; a colour has no other (R9, R22). -/
def channel (k : Nat) (c : Rgb) : Byte :=
  match k with
  | 0 => c.r
  | 1 => c.g
  | 2 => c.b
  | _ => 0

/-- What holds at R, G and B holds of every channel. -/
theorem forall_channel {P : Nat → Prop} (hr : P 0) (hg : P 1) (hb : P 2) : ∀ k < 3, P k := by
  intro k hk
  obtain rfl | rfl | rfl : k = 0 ∨ k = 1 ∨ k = 2 := by omega
  · exact hr
  · exact hg
  · exact hb

/-! ## Words -/

/-- The bytes of an RGB888 word are the channels of its colour, and a zero above them (R22). -/
theorem chan_rgbWord (c : Rgb) (k : Nat) (hk : k < 4) : chan (rgbWord c) k = (channel k c).toNat := by
  obtain ⟨hr, hg, hb, hreserved⟩ := byteOf_rgbWord c
  rw [← byteOf_toNat]
  have hcolour : ∀ k < 3, byteOf (rgbWord c) k = channel k c := forall_channel hr hg hb
  obtain hk | rfl : k < 3 ∨ k = 3 := by omega
  · rw [hcolour k hk]
  · rw [hreserved]; rfl

/-- The channels of a word's colour are its low three bytes (R22). -/
theorem channel_rgbOfWord (w : Word) : ∀ k < 3, (channel k (rgbOfWord w)).toNat = chan w k :=
  forall_channel (byteOf_toNat w 0) (byteOf_toNat w 1) (byteOf_toNat w 2)

/-- The colour of a word is its low three bytes (R22). -/
theorem rgbOfWord_eq (w : Word) : rgbOfWord w = ⟨byteOf w 0, byteOf w 1, byteOf w 2⟩ := rfl

/-- Words that agree but for byte 3 have the same colour (R111). -/
theorem rgbOfWord_congr (v w : Word) (h : ∀ k < 3, chan v k = chan w k) : rgbOfWord v = rgbOfWord w := by
  have hbyte : ∀ k < 3, byteOf v k = byteOf w k := fun k hk => by
    rw [byteOf_eq_ofNat_chan, byteOf_eq_ofNat_chan, h k hk]
  rw [rgbOfWord_eq, rgbOfWord_eq, hbyte 0 (by decide), hbyte 1 (by decide), hbyte 2 (by decide)]

/-! ## Colours computed per channel -/

/-- A channel of a colour computed per channel is the expression on that channel, narrowed to 8 bits (R9). -/
theorem channel_perChannel (f : Nat → Nat → Nat) (a b : Rgb) :
    ∀ k < 3, (channel k (perChannel f a b)).toNat = f (channel k a).toNat (channel k b).toNat % 256 :=
  forall_channel (BitVec.toNat_ofNat ..) (BitVec.toNat_ofNat ..) (BitVec.toNat_ofNat ..)

/-- The least value of a channel fits 8 bits (R110). -/
theorem chanMin_lt (ch : Rgb → Byte) (ps : List Rgb) : chanMin ch ps < 256 :=
  Nat.lt_succ_of_le (foldMin_spec ch ps 255).1

/-- The greatest value of a channel fits 8 bits (R110). -/
theorem chanMax_lt (ch : Rgb → Byte) (ps : List Rgb) : chanMax ch ps < 256 := by
  obtain ⟨-, -, hzero | ⟨p, -, hp⟩⟩ := foldMax_spec ch ps 0
  · rw [chanMax, hzero]; decide
  · rw [chanMax, hp]; exact (ch p).isLt

/-- A channel of the box's low corner is the least value of that channel (R110). -/
theorem channel_rawMin (ps : List Rgb) : ∀ k < 3, (channel k (rawMin ps)).toNat = chanMin (channel k) ps := by
  have hfits : ∀ ch, (BitVec.ofNat 8 (chanMin ch ps)).toNat = chanMin ch ps := fun ch =>
    (BitVec.toNat_ofNat ..).trans (Nat.mod_eq_of_lt (chanMin_lt ch ps))
  exact forall_channel (hfits _) (hfits _) (hfits _)

/-- A channel of the box's high corner is the greatest value of that channel (R110). -/
theorem channel_rawMax (ps : List Rgb) : ∀ k < 3, (channel k (rawMax ps)).toNat = chanMax (channel k) ps := by
  have hfits : ∀ ch, (BitVec.ofNat 8 (chanMax ch ps)).toNat = chanMax ch ps := fun ch =>
    (BitVec.toNat_ofNat ..).trans (Nat.mod_eq_of_lt (chanMax_lt ch ps))
  exact forall_channel (hfits _) (hfits _) (hfits _)

end Sys2Proof.Machine
end

section
/-! The bounding box and its inset (spec/42_inset.md): the box on naturals (R110), the inset in each channel (R112, R113), BBOX's rule
(R114), and alpha (R111). -/

namespace Sys2Proof.Machine

open Sys2Proof.Claims

/-! ## The box, on naturals -/

/-- In a block that has a pixel the least value of a channel bounds every pixel's from below and is some pixel's (R110). -/
theorem chanMin_spec (ch : Rgb → Byte) (ps : List Rgb) (hps : ps ≠ []) :
    (∀ p ∈ ps, chanMin ch ps ≤ (ch p).toNat) ∧ ∃ p ∈ ps, (ch p).toNat = chanMin ch ps := by
  obtain ⟨-, hle, hstart | ⟨p, hp, heq⟩⟩ := foldMin_spec ch ps 255
  · obtain ⟨p, hp⟩ := List.exists_mem_of_ne_nil ps hps
    have hlow := hle p hp
    have hbyte := (ch p).isLt
    exact ⟨hle, p, hp, by rw [chanMin]; omega⟩
  · exact ⟨hle, p, hp, heq.symm⟩

/-- In a block that has a pixel the greatest value of a channel bounds every pixel's from above and is some pixel's (R110). -/
theorem chanMax_spec (ch : Rgb → Byte) (ps : List Rgb) (hps : ps ≠ []) :
    (∀ p ∈ ps, (ch p).toNat ≤ chanMax ch ps) ∧ ∃ p ∈ ps, (ch p).toNat = chanMax ch ps := by
  obtain ⟨-, hle, hstart | ⟨p, hp, heq⟩⟩ := foldMax_spec ch ps 0
  · obtain ⟨p, hp⟩ := List.exists_mem_of_ne_nil ps hps
    have hhigh := hle p hp
    exact ⟨hle, p, hp, by rw [chanMax]; omega⟩
  · exact ⟨hle, p, hp, heq.symm⟩

/-- A block is not empty: it has 16 pixels (R22). -/
theorem State.pixels_ne_nil (s : State) : s.pixels ≠ [] := List.ne_nil_of_length_pos (by simp [State.pixels, pixRegs])

/-- RAWMIN's channel is at most every pixel's and is some pixel's (R110). -/
theorem rawMin_pixels (s : State) (k : Nat) (hk : k < 3) :
    (∀ i, (channel k (rawMin s.pixels)).toNat ≤ pixChan s i k) ∧ ∃ i, pixChan s i k = (channel k (rawMin s.pixels)).toNat := by
  obtain ⟨hle, p, hp, heq⟩ := chanMin_spec (channel k) s.pixels s.pixels_ne_nil
  rw [channel_rawMin _ k hk]
  obtain ⟨i, rfl⟩ := (mem_pixels s p).mp hp
  refine ⟨fun j => ?_, i, ?_⟩
  · rw [pixChan, ← channel_rgbOfWord _ k hk]; exact hle _ ((mem_pixels s _).mpr ⟨j, rfl⟩)
  · rw [pixChan, ← channel_rgbOfWord _ k hk]; exact heq

/-- RAWMAX's channel is at least every pixel's and is some pixel's (R110). -/
theorem rawMax_pixels (s : State) (k : Nat) (hk : k < 3) :
    (∀ i, pixChan s i k ≤ (channel k (rawMax s.pixels)).toNat) ∧ ∃ i, pixChan s i k = (channel k (rawMax s.pixels)).toNat := by
  obtain ⟨hle, p, hp, heq⟩ := chanMax_spec (channel k) s.pixels s.pixels_ne_nil
  rw [channel_rawMax _ k hk]
  obtain ⟨i, rfl⟩ := (mem_pixels s p).mp hp
  refine ⟨fun j => ?_, i, ?_⟩
  · rw [pixChan, ← channel_rgbOfWord _ k hk]; exact hle _ ((mem_pixels s _).mpr ⟨j, rfl⟩)
  · rw [pixChan, ← channel_rgbOfWord _ k hk]; exact heq

/-! ## The inset -/

/-- A channel of the inset is a sixteenth of the box's extent, rounded down (R112). -/
theorem channel_insetDelta (lo hi : Rgb) (k : Nat) (hk : k < 3) :
    (channel k (insetDelta lo hi)).toNat = ((channel k hi).toNat - (channel k lo).toNat) / 16 := by
  have hbyte := (channel k hi).isLt
  rw [insetDelta, channel_perChannel _ lo hi k hk, Nat.shiftRight_eq_div_pow]
  exact Nat.mod_eq_of_lt (by omega)

/-- The low corner moves up by the inset; of a box that is not inverted the sum stays within 8 bits (R112, R113). -/
theorem channel_insetMin (lo hi : Rgb) (k : Nat) (hk : k < 3) (h : (channel k lo).toNat ≤ (channel k hi).toNat) :
    (channel k (insetMin lo hi)).toNat = (channel k lo).toNat + (channel k (insetDelta lo hi)).toNat := by
  have hbyte := (channel k hi).isLt
  rw [insetMin, channel_perChannel _ lo _ k hk, channel_insetDelta lo hi k hk]
  exact Nat.mod_eq_of_lt (by omega)

/-- The high corner moves down by the inset, and the difference does not go below zero (R112, R113). -/
theorem channel_insetMax_add (lo hi : Rgb) (k : Nat) (hk : k < 3) :
    (channel k (insetMax lo hi)).toNat + (channel k (insetDelta lo hi)).toNat = (channel k hi).toNat := by
  have hbyte := (channel k hi).isLt
  rw [insetMax, channel_perChannel _ hi _ k hk, channel_insetDelta lo hi k hk, Nat.mod_eq_of_lt (by omega)]
  omega

/-! ## The registers BBOX writes -/

/-- An operation that writes the box's words leaves the box and its inset in their registers (R110, R112, R114). -/
theorem boxOf_afterPerform (op : Op) (s : State) (hwords : bboxWords s.pixels ⊆ opResults op s) : BoxOf s (afterPerform op s) := by
  have hvalue : ∀ r c, (r, rgbWord c) ∈ bboxWords s.pixels → (afterPerform op s).value r = rgbWord c := fun r c hr => by
    rw [afterPerform_value op s r _ (hwords hr), DataReg.stored_rgbWord]
  have hmin := hvalue .rawmin (rawMin s.pixels) (by simp [bboxWords])
  have hmax := hvalue .rawmax (rawMax s.pixels) (by simp [bboxWords])
  have hdelta := hvalue .delta (insetDelta (rawMin s.pixels) (rawMax s.pixels)) (by simp [bboxWords])
  have hminc := hvalue .minc (insetMin (rawMin s.pixels) (rawMax s.pixels)) (by simp [bboxWords])
  have hmaxc := hvalue .maxc (insetMax (rawMin s.pixels) (rawMax s.pixels)) (by simp [bboxWords])
  refine ⟨fun k hk => ?channels, ?reserved⟩
  case channels =>
    obtain ⟨hlow, i, hi⟩ := rawMin_pixels s k hk
    obtain ⟨hhigh, j, hj⟩ := rawMax_pixels s k hk
    have hordered : (channel k (rawMin s.pixels)).toNat ≤ (channel k (rawMax s.pixels)).toNat := (hlow i).trans (hhigh i)
    have hk' : k < 4 := by omega
    simp only [hmin, hmax, hdelta, hminc, hmaxc, chan_rgbWord _ k hk']
    exact ⟨hlow, ⟨i, hi⟩, hhigh, ⟨j, hj⟩, channel_insetDelta _ _ k hk, channel_insetMin _ _ k hk hordered,
      channel_insetMax_add _ _ k hk⟩
  case reserved =>
    have hclear : ∀ c, chan (rgbWord c) 3 = 0 := fun c => chan_rgbWord c 3 (by decide)
    simp only [List.forall_mem_cons, hmin, hmax, hdelta, hminc, hmaxc, hclear, true_and]
    exact List.forall_mem_nil _

/-- Settles O5: completion, frame and Unwritten are the perform step's; what is BBOX's own is the box and its inset. -/
theorem bboxRule : Obligations.BboxRule :=
  operationRule_of_afterPerform (op := .bbox) (by decide) (by decide) fun s =>
    boxOf_afterPerform .bbox s (List.Subset.refl _)

/-- A box in the registers is ordered, since a pixel lies between its corners, and DELTA is a sixteenth of its extent (R110, R112). -/
theorem ordered_of_boxOf {s t : State} (h : BoxOf s t) (k : Nat) (hk : k < 3) :
    chan (t.value .rawmin) k ≤ chan (t.value .rawmax) k ∧
    chan (t.value .delta) k = (chan (t.value .rawmax) k - chan (t.value .rawmin) k) / 16 := by
  obtain ⟨hchannels, -⟩ := h
  obtain ⟨hlow, ⟨i, -⟩, hhigh, -, hdelta, -⟩ := hchannels k hk
  exact ⟨(hlow i).trans (hhigh i), hdelta⟩

/-- Settles O19: a sixteenth taken from both ends of an extent of at most 255 leaves the ends in order. -/
theorem insetNeverInverts : Obligations.InsetNeverInverts := by
  intro cap s t hready hexec k hk
  have hexec' : perform .bbox (opResults .bbox) s = .next t := (exec_instr .bbox cap s).symm.trans hexec
  obtain rfl := perform_next_ready .bbox s t hready hexec'
  have hbox := boxOf_afterPerform .bbox s (List.Subset.refl _)
  obtain ⟨hordered, hdelta⟩ := ordered_of_boxOf hbox k hk
  obtain ⟨hchannels, -⟩ := hbox
  obtain ⟨-, -, -, -, -, hminc, hmaxc⟩ := hchannels k hk
  have hbyte : chan ((afterPerform .bbox s).value .rawmax) k < 256 := Nat.mod_lt _ (by decide)
  omega

/-! ## Alpha -/

/-- Settles O17: an operation's results are read from the colours of the pixels and the values of the other operands. -/
theorem alphaHasNoEffect : Obligations.AlphaHasNoEffect := by
  intro op cap s s' t hsame hready hexec
  rw [exec_instr] at hexec ⊢
  have hready' : s'.Ready op := fun r hr => by
    obtain ⟨hvalid, -, -⟩ := hsame r
    exact hvalid.symm.trans (hready r hr)
  have hcolour : ∀ r, rgbOfWord (s.value r) = rgbOfWord (s'.value r) := fun r => by
    obtain ⟨-, hchannels, -⟩ := hsame r
    exact rgbOfWord_congr _ _ hchannels
  have hother : ∀ r, (∀ i, r ≠ .pix i) → s.value r = s'.value r := fun r => by
    obtain ⟨-, -, hvalue⟩ := hsame r
    exact hvalue
  have hresults := opResults_congr op s s' (fun r _ => hcolour r) fun r _ => hother r
  obtain rfl := perform_next_ready op s t hready hexec
  exact ⟨_, perform_ready op s' hready', afterPerform_congr op s s' hresults⟩

end Sys2Proof.Machine
end

section
/-! The invariant of the machine (spec/10_state.md sections 2 to 4): each move a step is made of keeps it. -/

namespace Sys2Proof.Machine

open Sys2Proof.Claims

/-! ## The register file's part -/

/-- An RGB888 register stores its bits [31:24] as 0 (R22, R32). -/
theorem DataReg.stored_reserved (r : DataReg) (w : Word) (h : r.isRgb = true) : (r.stored w).extractLsb' 24 8 = 0 := by
  have hzero : chan (r.stored w) 3 = 0 := by
    rw [chan_stored r w 3 (by decide), if_pos ⟨(mem_rgb888 r).mpr h, rfl⟩]
  exact BitVec.eq_of_toNat_eq ((byteOf_toNat (r.stored w) 3).trans hzero)

/-- Writes keep the reserved bits clear: every register has its old cell, or a stored word (R22, R32). -/
theorem State.reservedClear_of_writes {s t : State} (h : s.reservedClear)
    (hcell : ∀ r, t.cell r = s.cell r ∨ ∃ w, (t.cell r).val = r.stored w) : t.reservedClear := by
  intro r hrgb
  rcases hcell r with hkept | ⟨w, hw⟩
  · rw [hkept]; exact h r hrgb
  · rw [hw]; exact r.stored_reserved w hrgb

/-- The channels a register stores are the channels of its value (R22). -/
theorem State.byteOf_cell_toNat (s : State) (r : DataReg) (k : Nat) (hk : k < 3) :
    (byteOf (s.cell r).val k).toNat = chan (s.value r) k := by
  rw [byteOf_toNat, State.value, chan_stored r _ k (by omega), if_neg (by omega)]

/-- The invariant's clause on DELTA, on the registers' values (R112). -/
theorem State.deltaAgrees_iff (s : State) : s.deltaAgrees ↔
    ∀ k < 3, chan (s.value .rawmin) k ≤ chan (s.value .rawmax) k ∧
      chan (s.value .delta) k = (chan (s.value .rawmax) k - chan (s.value .rawmin) k) / 16 := by
  refine forall₂_congr fun k hk => ?_
  rw [s.byteOf_cell_toNat .rawmin k hk, s.byteOf_cell_toNat .rawmax k hk, s.byteOf_cell_toNat .delta k hk]

/-- DELTA agrees with the box as long as none of the three registers is written (R21). -/
theorem State.deltaAgrees_of_cells {s t : State} (h : s.deltaAgrees)
    (hcell : ∀ r ∈ [DataReg.rawmin, .rawmax, .delta], t.cell r = s.cell r) : t.deltaAgrees := by
  unfold State.deltaAgrees
  rw [hcell .rawmin (by decide), hcell .rawmax (by decide), hcell .delta (by decide)]
  exact h

/-- An operation either writes the box's words or writes none of RAWMIN, RAWMAX and DELTA (R28, R114, R150). -/
theorem bboxWords_subset_or_box_not_written (op : Op) :
    (∀ s, bboxWords s.pixels ⊆ opResults op s) ∨ ∀ r ∈ [DataReg.rawmin, .rawmax, .delta], r ∉ opWrites op := by
  cases op with
  | bbox => exact .inl fun s => List.Subset.refl _
  | compress =>
    refine .inl fun s => ?_
    simp only [opResults, compressResults, compressWords, List.append_assoc]
    exact List.subset_append_left _ _
  | quant => exact .inr (by decide)
  | palette => exact .inr (by decide)
  | classify => exact .inr (by decide)
  | serialize => exact .inr (by decide)

/-- A completed operation leaves DELTA in agreement with the box: it writes the three together, or none (R112, R114). -/
theorem afterPerform_deltaAgrees (op : Op) (s : State) (h : s.deltaAgrees) : (afterPerform op s).deltaAgrees := by
  rcases bboxWords_subset_or_box_not_written op with hbox | hkept
  · exact (State.deltaAgrees_iff _).mpr (ordered_of_boxOf (boxOf_afterPerform op s (hbox s)))
  · exact State.deltaAgrees_of_cells h fun r hr => (afterPerform_frame op s).regs r (hkept r hr)

/-- A completed operation leaves the reserved bits clear (R22, R32). -/
theorem afterPerform_reservedClear (op : Op) (s : State) (h : s.reservedClear) : (afterPerform op s).reservedClear := by
  refine State.reservedClear_of_writes h fun r => ?_
  by_cases hr : r ∈ opWrites op
  · rw [← opResults_regs op s] at hr
    obtain ⟨⟨q, w⟩, hm, rfl⟩ := List.mem_map.mp hr
    exact .inr ⟨w, by rw [afterPerform_cell op s q w hm]⟩
  · exact .inl ((afterPerform_frame op s).regs r hr)

/-! ## The moves of a step -/

/-- A move that leaves the core as it was and the host's storage canonical keeps the invariant. -/
theorem State.Inv.of_sameCore {s t : State} (h : s.Inv) (hcore : SameCore s t) (hmem : t.mem.wf = true)
    (htemps : sparseWf t.temps = true) : t.Inv := by
  obtain ⟨hcmd, hstatus, hpending, hregs⟩ := hcore
  have hcell : ∀ r : DataReg, t.cell r = s.cell r := fun r => by simp only [State.cell, hregs]
  refine ⟨?_, ?_, ?_, ?_, ?_, ?_, hmem, htemps⟩
  · rw [State.statusLegal, hstatus]; exact h.statusLegal
  · rw [State.busyIffPending, State.busy, hstatus, hpending]; exact h.busyIffPending
  · rw [State.pendingIsCmd, hpending, hcmd]; exact h.pendingIsCmd
  · rw [State.errorNamesCmd, hstatus, hcmd]; exact h.errorNamesCmd
  · exact State.reservedClear_of_writes h.reservedClear fun r => .inl (hcell r)
  · exact State.deltaAgrees_of_cells h.deltaAgrees fun r _ => hcell r

/-- A host write of a data register keeps the invariant: RAWMIN, RAWMAX and DELTA are read-only (R21, R33). -/
theorem State.Inv.put {s : State} (h : s.Inv) (d : DataReg) (w : Word) (hrw : (Reg.data d).readOnly = false) : (s.put d w).Inv where
  statusLegal := h.statusLegal
  busyIffPending := h.busyIffPending
  pendingIsCmd := h.pendingIsCmd
  errorNamesCmd := h.errorNamesCmd
  reservedClear := State.reservedClear_of_writes h.reservedClear fun r => by
    by_cases hr : r = d
    · exact .inr ⟨w, by rw [hr, s.put_cell, if_pos rfl]⟩
    · exact .inl (s.put_cell_other w hr)
  deltaAgrees := State.deltaAgrees_of_cells h.deltaAgrees fun r hr => by
    have hro : ∀ q ∈ [DataReg.rawmin, .rawmax, .delta], (Reg.data q).readOnly = true := by decide
    refine s.put_cell_other w fun hrd => ?_
    rw [← hrd, hro r hr] at hrw
    cases hrw
  memWf := h.memWf
  tempsWf := h.tempsWf

/-- A legal issue keeps the invariant: BUSY and PENDING are set together, for the word in CMD (R90). -/
theorem State.Inv.latch {s : State} (h : s.Inv) (w : Word) (op : Op) (hlegal : decodeOp w = some op) :
    ((s.storeCmd w).latch op).Inv where
  statusLegal := .inr (.inl statusBusy_eq)
  busyIffPending := ⟨fun _ => Option.some_ne_none op, fun _ => (by decide : busyBit statusBusy = true)⟩
  pendingIsCmd := fun _ hp => hlegal.trans hp
  errorNamesCmd := fun herr => absurd herr (by decide : statusBusy ≠ 0x00000016)
  reservedClear := h.reservedClear
  deltaAgrees := h.deltaAgrees
  memWf := h.memWf
  tempsWf := h.tempsWf

/-- A rejection keeps the invariant: nothing is pending, and ILLEGAL_CMD stands with the illegal word (R91). -/
theorem State.Inv.reject {s : State} (h : s.Inv) (w : Word) (hillegal : decodeOp w = none) : (s.storeCmd w).reject.Inv where
  statusLegal := .inr (.inr (.inr statusIllegal_eq))
  busyIffPending := ⟨fun hb => absurd hb (by decide : ¬ busyBit statusIllegal = true), fun hp => absurd rfl hp⟩
  pendingIsCmd := fun _ hp => nomatch hp
  errorNamesCmd := fun _ => hillegal
  reservedClear := h.reservedClear
  deltaAgrees := h.deltaAgrees
  memWf := h.memWf
  tempsWf := h.tempsWf

/-- A completed operation keeps the invariant (R92). -/
theorem State.Inv.afterPerform {s : State} (h : s.Inv) (op : Op) : (afterPerform op s).Inv where
  statusLegal := .inr (.inr (.inl (afterPerform_completed op s).status))
  busyIffPending := ⟨fun hb => absurd hb (by decide : ¬ busyBit statusDone = true), fun hp => absurd rfl hp⟩
  pendingIsCmd := fun _ hp => nomatch hp
  errorNamesCmd := fun herr => absurd herr (by decide : statusDone ≠ 0x00000016)
  reservedClear := afterPerform_reservedClear op s h.reservedClear
  deltaAgrees := afterPerform_deltaAgrees op s h.deltaAgrees
  memWf := by rw [(afterPerform_frame op s).outside.mem]; exact h.memWf
  tempsWf := by rw [(afterPerform_frame op s).outside.temps]; exact h.tempsWf

/-- A reset keeps the invariant: the register file is all zeros, and nothing is pending (R35, R200; log entry 1). -/
theorem State.Inv.resetCore {s : State} (h : s.Inv) : s.resetCore.Inv where
  statusLegal := .inl statusReset_eq
  busyIffPending := ⟨fun hb => absurd hb (by decide : ¬ busyBit statusReset = true), fun hp => absurd rfl hp⟩
  pendingIsCmd := fun _ hp => nomatch hp
  errorNamesCmd := fun herr => absurd herr (by decide : statusReset ≠ 0x00000016)
  reservedClear := fun r _ => by rw [s.resetCore_cell r]; rfl
  deltaAgrees := by simp only [State.deltaAgrees, State.resetCore_cell]; decide
  memWf := h.memWf
  tempsWf := h.tempsWf

/-! ## The step -/

/-- Every move a step is made of keeps the invariant: the host's bookkeeping and the fault mark leave the core as it was, and the
moves of the core are the lemmas above. -/
theorem State.Inv.stepClosed : StepClosed State.Inv where
  fault s f h := h.of_sameCore ⟨by simp, by simp, by simp, by simp⟩ (by simp [h.memWf]) (by simp [h.tempsWf])
  note s u h := h.of_sameCore ⟨by simp, by simp, by simp, by simp⟩ (by simp [h.memWf]) (by simp [h.tempsWf])
  schedule _ _ h := h.of_sameCore ⟨rfl, rfl, rfl, rfl⟩ h.memWf h.tempsWf
  prog _ _ h := h.of_sameCore ⟨rfl, rfl, rfl, rfl⟩ h.memWf h.tempsWf
  temp _ x v h := h.of_sameCore ⟨rfl, rfl, rfl, rfl⟩ h.memWf (sparseSet_wf _ x v h.tempsWf)
  mem _ a w h := h.of_sameCore ⟨rfl, rfl, rfl, rfl⟩ (writeWord_wf _ a w h.memWf) h.tempsWf
  result _ _ h := h.of_sameCore ⟨rfl, rfl, rfl, rfl⟩ h.memWf h.tempsWf
  put _ d w h _ hrw := h.put d w hrw
  latch _ w op h _ hlegal := h.latch w op hlegal
  reject _ w h _ hillegal := h.reject w hillegal
  perform _ op h _ _ := h.afterPerform op
  reset _ h := h.resetCore

/-- Settles O40: a step is made of moves that each keep the invariant. -/
theorem stepKeepsInvariant : Obligations.StepKeepsInvariant := State.Inv.stepClosed.step

end Sys2Proof.Machine
end

section
/-! The palette interpolator (spec/43_palette.md): the reciprocal multiply (R121, R123), PALETTE's rule (R125) and the order of the
palette (R126). -/

namespace Sys2Proof.Machine

open Sys2Proof.Claims

/-! ## The reciprocal multiply -/

/-- The reciprocal exceeds a third of 2^16 by 2/3, an excess that stays below one unit of the quotient up to 32767 (R123). -/
theorem mul_reciprocalK_div (x : Nat) (h : x < 32768) : x * reciprocalK / 65536 = x / 3 := by
  rw [reciprocalK_eq]
  omega

/-- The reciprocal multiply is the rule's expression on naturals: the saturation is what makes it fit 8 bits (R121). -/
theorem reciprocalMul3_toNat (x : BitVec 16) : (reciprocalMul3 x).toNat = third x.toNat := by
  rw [reciprocalMul3, reciprocalK_eq, Nat.shiftRight_eq_div_pow, BitVec.toNat_ofNat]
  exact Nat.mod_eq_of_lt (Nat.lt_succ_of_le (Nat.min_le_right _ _))

/-- On the palette's inputs a third is the quotient by 3, and does not saturate (R122, R123). -/
theorem third_eq_div (x : Nat) (h : x ≤ 765) : third x = x / 3 := by
  have hquotient := mul_reciprocalK_div x (by omega)
  rw [reciprocalK_eq] at hquotient
  rw [third, hquotient]
  omega

/-- Settles O21: 21846 is 2/3 above a third of 2^16, which shows in the quotient at 32768 for the first time. -/
theorem reciprocalIsThirdOnPaletteInputs : Obligations.ReciprocalIsThirdOnPaletteInputs := by
  refine ⟨fun x hx => ?_, mul_reciprocalK_div, by decide, by decide⟩
  rw [reciprocalMul3_toNat, third_eq_div _ hx]

/-- A third of three times a byte is the byte (R126). -/
theorem reciprocalMul3_three_mul (v : Byte) : reciprocalMul3 (BitVec.ofNat 16 (3 * v.toNat)) = v := by
  have hv := v.isLt
  have hfits : (BitVec.ofNat 16 (3 * v.toNat)).toNat = 3 * v.toNat := by
    rw [BitVec.toNat_ofNat]
    exact Nat.mod_eq_of_lt (by omega)
  apply BitVec.eq_of_toNat_eq
  rw [reciprocalMul3_toNat, hfits, third_eq_div _ (by omega), Nat.mul_div_cancel_left _ (by decide)]

/-! ## The palette's channels -/

/-- EP0 as the statements read it off a state is the model's (R22). -/
theorem ep0Of_toNat (s : State) : (ep0Of (s.value .ep)).toNat = ep0 s := by
  rw [ep0Of, BitVec.extractLsb'_toNat, Nat.shiftRight_zero, ep0]

/-- EP1 as the statements read it off a state is the model's (R22). -/
theorem ep1Of_toNat (s : State) : (ep1Of (s.value .ep)).toNat = ep1 s := by
  have hword := (s.value .ep).isLt
  rw [ep1Of, BitVec.extractLsb'_toNat, Nat.shiftRight_eq_div_pow, ep1]
  exact Nat.mod_eq_of_lt (by omega)

/-- A channel of a re-expanded endpoint is its field by bit replication (R101). -/
theorem channel_unpack565 (p : Endpoint) : ∀ k < 3, (channel k (unpack565 p)).toNat = expanded p.toNat k :=
  forall_channel (unpack565_r p) (unpack565_g p) (unpack565_b p)

/-- A channel of an interpolated colour is a third of twice the near one and the far one (R121, R124). -/
theorem channel_interpolate (near far : Rgb) :
    ∀ k < 3, (channel k (interpolate near far)).toNat = third (2 * (channel k near).toNat + (channel k far).toNat) :=
  forall_channel (twoThirds_toNat ..) (twoThirds_toNat ..) (twoThirds_toNat ..)

/-! ## PALETTE -/

/-- An RGB888 register's value has bits [31:24] clear, in every state (R22, R32). -/
theorem State.chan_value_reserved (s : State) {r : DataReg} (h : r ∈ rgb888) : chan (s.value r) 3 = 0 := by
  rw [State.value, chan_stored r _ 3 (by decide), if_pos ⟨h, rfl⟩]

/-- An operation that writes a palette leaves its colours in PAL0 to PAL3 (R125). -/
theorem afterPerform_palette (op : Op) (s : State) (p : Palette) (hwords : paletteWords p ⊆ opResults op s) :
    (afterPerform op s).value (.pal 0) = rgbWord p.c0 ∧ (afterPerform op s).value (.pal 1) = rgbWord p.c1 ∧
    (afterPerform op s).value (.pal 2) = rgbWord p.c2 ∧ (afterPerform op s).value (.pal 3) = rgbWord p.c3 := by
  have hvalue : ∀ r c, (r, rgbWord c) ∈ paletteWords p → (afterPerform op s).value r = rgbWord c := fun r c hr => by
    rw [afterPerform_value op s r _ (hwords hr), DataReg.stored_rgbWord]
  refine ⟨hvalue _ _ ?_, hvalue _ _ ?_, hvalue _ _ ?_, hvalue _ _ ?_⟩ <;> simp [paletteWords]

/-- An operation that writes the palette of `u`'s endpoints leaves PAL0 to PAL3 as the rule has them (R120, R124, R125). -/
theorem paletteFrom_afterPerform (op : Op) (s u : State) (hwords : paletteResults u ⊆ opResults op s) :
    PaletteFrom u (afterPerform op s) := by
  obtain ⟨hpal0, hpal1, hpal2, hpal3⟩ := afterPerform_palette op s _ hwords
  refine ⟨fun k hk => ?channels, fun j => State.chan_value_reserved _ ((mem_rgb888 (.pal j)).mpr rfl)⟩
  case channels =>
    have hk' : k < 4 := by omega
    simp only [hpal0, hpal1, hpal2, hpal3, chan_rgbWord _ k hk', paletteOf, channel_interpolate _ _ k hk, channel_unpack565 _ k hk,
      ep0Of_toNat, ep1Of_toNat, true_and]
    rw [Nat.add_comm]

/-- Settles O7: completion, frame and Unwritten are the perform step's; what is PALETTE's own is the four colours it writes. -/
theorem paletteRule : Obligations.PaletteRule :=
  operationRule_of_afterPerform (op := .palette) (by decide) (by decide) fun s =>
    paletteFrom_afterPerform .palette s s (List.Subset.refl _)

/-! ## The order of the palette -/

/-- In each channel color2 and color3 are the thirds between color0 and color1, rounded down (R123, R124). -/
theorem thirds_of_paletteFrom {s t : State} (h : PaletteFrom s t) (k : Nat) (hk : k < 3) :
    chan (t.value (.pal 2)) k = (2 * chan (t.value (.pal 0)) k + chan (t.value (.pal 1)) k) / 3 ∧
    chan (t.value (.pal 3)) k = (chan (t.value (.pal 0)) k + 2 * chan (t.value (.pal 1)) k) / 3 := by
  obtain ⟨hchannels, -⟩ := h
  obtain ⟨h0, h1, h2, h3⟩ := hchannels k hk
  have hbyte0 : chan (t.value (.pal 0)) k < 256 := Nat.mod_lt _ (by decide)
  have hbyte1 : chan (t.value (.pal 1)) k < 256 := Nat.mod_lt _ (by decide)
  rw [← h0, ← h1, third_eq_div _ (by omega)] at h2 h3
  exact ⟨h2, h3⟩

/-- Settles O22: color2 is two parts color0 and one part color1, color3 the reverse, and rounding the thirds down keeps their order. -/
theorem paletteIsOrdered : Obligations.PaletteIsOrdered := by
  refine ⟨fun cap s t hready hexec k hk => ?ordered, reciprocalMul3_three_mul, by decide, by decide⟩
  case ordered =>
    have hexec' : perform .palette (opResults .palette) s = .next t := (exec_instr .palette cap s).symm.trans hexec
    obtain rfl := perform_next_ready .palette s t hready hexec'
    obtain ⟨h2, h3⟩ := thirds_of_paletteFrom (paletteFrom_afterPerform .palette s s (List.Subset.refl _)) k hk
    refine ⟨fun v h0 h1 => ?equal, fun hdecreasing => ?decreasing, fun hincreasing => ?increasing⟩
    case equal => omega
    case decreasing => omega
    case increasing => omega

end Sys2Proof.Machine
end

section
/-! The SAD classifier (spec/44_classifier.md): the comparator network as a number (R132 to R134), the network against argmin (R135),
CLASSIFY's rule (R136) and the independence of its lanes (R137). -/

namespace Sys2Proof.Machine

open Sys2Proof.Claims

/-! ## The comparator network -/

/-- Two bits side by side, as a number (R133). -/
theorem toNat_ofBool_append_ofBool :
    ∀ x y : Bool, (BitVec.ofBool x ++ BitVec.ofBool y).toNat = 2 * (if x then 1 else 0) + (if y then 1 else 0) := by
  decide

/-- The network's two bits are the index that the rule computes from the distances (R132, R133). -/
theorem network_toNat (d0 d1 d2 d3 : Nat) : (network d0 d1 d2 d3).toNat = codeOf d0 d1 d2 d3 := by
  rw [network, toNat_ofBool_append_ofBool, codeOf]
  simp only [Bool.or_eq_true, Bool.and_eq_true, decide_eq_true_eq]

/-- The network's two bits from the value of the rule's index. -/
theorem network_eq_ofNat {d0 d1 d2 d3 n : Nat} (h : codeOf d0 d1 d2 d3 = n) : network d0 d1 d2 d3 = BitVec.ofNat 2 n := by
  rw [← h, ← network_toNat, BitVec.ofNat_toNat, BitVec.setWidth_eq]

/-- The index in the order of R134: x2 first. With x2 set, x0 or x1 is set exactly when `d3 < d1`. -/
theorem codeOf_closedForm (d0 d1 d2 d3 : Nat) : codeOf d0 d1 d2 d3 =
    if d0 > d3 ∧ d2 > d3 then (if d1 ≤ d3 then 1 else 3)
    else if (d1 > d2 ∧ d0 > d2) ∨ (d0 > d3 ∧ d1 > d3) then 2 else 0 := by
  rw [codeOf]
  by_cases hx2 : d0 > d3 ∧ d2 > d3
  · rw [if_pos hx2, if_pos hx2]
    by_cases h1 : d1 ≤ d3
    · rw [if_pos h1, if_neg (by omega)]
    · rw [if_neg h1, if_pos (by omega)]
  · rw [if_neg hx2, if_neg hx2]
    split <;> rfl

section
variable {d0 d1 d2 d3 : Nat}

/-- A `d0` above neither `d2` nor `d3` gives 0, and so does a minimal one (R134 item 1). -/
theorem codeOf_eq_zero_of_le (h2 : d0 ≤ d2) (h3 : d0 ≤ d3) : codeOf d0 d1 d2 d3 = 0 := by
  rw [codeOf, if_neg (by omega), if_neg (by omega)]

/-- A strictly least `d3` gives 3 (R134 item 2). -/
theorem codeOf_eq_three_of_least (h0 : d3 < d0) (h1 : d3 < d1) (h2 : d3 < d2) : codeOf d0 d1 d2 d3 = 3 := by
  rw [codeOf, if_pos (by omega), if_pos (by omega)]

/-- A least `d2` that is below `d0` and `d1` gives 2, a tie with `d3` included (R134 item 3). -/
theorem codeOf_eq_two_of_least (h0 : d2 < d0) (h1 : d2 < d1) (h3 : d2 ≤ d3) : codeOf d0 d1 d2 d3 = 2 := by
  rw [codeOf, if_pos (by omega), if_neg (by omega)]

/-- A `d1` not above `d3` gives 1 when `d3` is below `d0` and `d2`, for x2 is set then (R134 item 4). -/
theorem codeOf_eq_one_of_least (h1 : d1 ≤ d3) (h0 : d3 < d0) (h2 : d3 < d2) : codeOf d0 d1 d2 d3 = 1 := by
  rw [codeOf, if_neg (by omega), if_pos (by omega)]

/-- With `d1` not above `d2` and `d3`, neither x0 nor x1 is set, so that without x2 the index is 0 (R135). -/
theorem codeOf_eq_zero_of_not_x2 (h2 : d1 ≤ d2) (h3 : d1 ≤ d3) (hx2 : ¬ (d3 < d0 ∧ d3 < d2)) : codeOf d0 d1 d2 d3 = 0 := by
  rw [codeOf, if_neg (by omega), if_neg hx2]

end

/-- Settles O23: the closed form splits on x2 first; each consequence fixes both bits of the index. -/
theorem networkClosedForm : Obligations.NetworkClosedForm := fun d0 d1 d2 d3 =>
  ⟨(network_toNat d0 d1 d2 d3).trans (codeOf_closedForm d0 d1 d2 d3),
    fun _ h2 h3 => network_eq_ofNat (codeOf_eq_zero_of_le h2 h3),
    fun h0 h1 h2 => network_eq_ofNat (codeOf_eq_three_of_least h0 h1 h2),
    fun h0 h1 h3 => network_eq_ofNat (codeOf_eq_two_of_least h0 h1 h3),
    fun h1 h0 h2 => network_eq_ofNat (codeOf_eq_one_of_least h1 h0 h2)⟩

/-- The index is argmin's but where argmin is 1 and x2 is not set (R135). -/
theorem codeOf_eq_argmin (d0 d1 d2 d3 : Nat) : codeOf d0 d1 d2 d3 =
    if argmin d0 d1 d2 d3 = 1 ∧ ¬ (d3 < d0 ∧ d3 < d2) then 0 else argmin d0 d1 d2 d3 := by
  unfold argmin
  by_cases h0 : d0 ≤ d1 ∧ d0 ≤ d2 ∧ d0 ≤ d3
  · simpa [h0] using codeOf_eq_zero_of_le (d1 := d1) (by omega) (by omega)
  · by_cases h1 : d1 ≤ d2 ∧ d1 ≤ d3
    · by_cases hx2 : d3 < d0 ∧ d3 < d2
      · simpa [h0, h1, hx2] using codeOf_eq_one_of_least (d0 := d0) (by omega) (by omega) (by omega)
      · simpa [h0, h1, hx2] using codeOf_eq_zero_of_not_x2 (by omega) (by omega) hx2
    · by_cases h2 : d2 ≤ d3
      · simpa [h0, h1, h2] using codeOf_eq_two_of_least (d0 := d0) (d1 := d1) (by omega) (by omega) h2
      · simpa [h0, h1, h2] using codeOf_eq_three_of_least (d0 := d0) (d1 := d1) (by omega) (by omega) (by omega)

/-- Settles O24: argmin's four values are the four consequences of R134, and the one case they leave open gives 0. -/
theorem networkAgainstArgmin : Obligations.NetworkAgainstArgmin := by
  refine ⟨fun d0 d1 d2 d3 => ?_, by decide, by decide, by decide, by decide⟩
  rw [network_toNat, codeOf_eq_argmin]

/-! ## Distances -/

/-- The absolute difference of two channels, as the statements have it (R8). -/
theorem absDiff_eq_gap (a b : Byte) : absDiff a b = gap a.toNat b.toNat := by
  unfold absDiff gap
  omega

/-- The distance of two words' colours is the sum of the gaps of their channels; byte 3 takes no part (R130, R131). -/
theorem sad_rgbOfWord (v w : Word) : sad (rgbOfWord v) (rgbOfWord w) =
    gap (chan v 0) (chan w 0) + gap (chan v 1) (chan w 1) + gap (chan v 2) (chan w 2) := by
  have hchan : ∀ k < 3, gap (channel k (rgbOfWord v)).toNat (channel k (rgbOfWord w)).toNat = gap (chan v k) (chan w k) :=
    fun k hk => by rw [channel_rgbOfWord v k hk, channel_rgbOfWord w k hk]
  rw [← hchan 0 (by decide), ← hchan 1 (by decide), ← hchan 2 (by decide), sad, absDiff_eq_gap, absDiff_eq_gap, absDiff_eq_gap]
  rfl

/-- One lane of the classifier, under the palette in the registers (R136, R137). -/
theorem indexOf_hostPalette (s : State) (i : Fin 16) : (indexOf s.hostPalette (rgbOfWord (s.value (.pix i)))).toNat =
    codeOf (sadOf s i 0) (sadOf s i 1) (sadOf s i 2) (sadOf s i 3) := by
  have hsad : ∀ j, sad (rgbOfWord (s.value (.pix i))) (rgbOfWord (s.value (.pal j))) = sadOf s i j := fun j => sad_rgbOfWord ..
  simp only [indexOf, network_toNat, State.hostPalette, hsad]

/-- A lane's distances are those of its pixel and the palette, whatever the other pixels are (R137). -/
theorem sadOf_congr {s s' : State} {i : Fin 16} (hpix : s.value (.pix i) = s'.value (.pix i))
    (hpal : ∀ j, s.value (.pal j) = s'.value (.pal j)) (j : Fin 4) : sadOf s i j = sadOf s' i j := by
  simp only [sadOf, pixChan, hpix, hpal]

/-! ## CLASSIFY -/

/-- An operation that writes the classification of `u` leaves IDXW as the rule has it (R136). -/
theorem indicesOf_afterPerform (op : Op) (s u : State) (hwords : classifyResults u ⊆ opResults op s) :
    IndicesOf u (afterPerform op s) := by
  intro i
  have hidxw : (afterPerform op s).value .idxw = classifyWord u.hostPalette u.pixels :=
    afterPerform_value op s .idxw _ (hwords (List.mem_singleton_self _))
  rw [hidxw, codeAt, classifyWord_code, indexOf_hostPalette]

/-- Settles O8: completion, frame and Unwritten are the perform step's; what is CLASSIFY's own is the index word it writes. -/
theorem classifyRule : Obligations.ClassifyRule :=
  operationRule_of_afterPerform (op := .classify) (by decide) (by decide) fun s =>
    indicesOf_afterPerform .classify s s (List.Subset.refl _)

/-- A completion of CLASSIFY holds its rule's indices (R92, R136). -/
theorem indicesOf_of_exec {cap : Bool} {s t : State} (hready : s.Ready .classify) (hexec : exec (.classify cap) s = .next t) :
    IndicesOf s t := by
  have hexec' : perform .classify (opResults .classify) s = .next t := (exec_instr .classify cap s).symm.trans hexec
  obtain rfl := perform_next_ready .classify s t hready hexec'
  exact indicesOf_afterPerform .classify s s (List.Subset.refl _)

/-- Settles O25: a code is a function of the lane's four distances, which are the same in both states. -/
theorem lanesAreIndependent : Obligations.LanesAreIndependent := by
  intro cap s s' t t' i hpix hpal hready hready' hexec hexec'
  rw [indicesOf_of_exec hready hexec i, indicesOf_of_exec hready' hexec' i]
  simp only [sadOf_congr hpix hpal]

end Sys2Proof.Machine
end

section
/-! The block serializer (spec/45_serializer.md): SERIALIZE's rule with the block's bytes in the window (R140, R143), and the endpoints and
indices that COMPRESS hands to it (R142). -/

namespace Sys2Proof.Machine

open Sys2Proof.Claims

/-! ## SERIALIZE -/

/-- SERIALIZE copies EP and IDXW: its two endpoints are the halves of EP, put back in their places (R142, R143). -/
theorem blockOf_afterPerform_serialize (s : State) : BlockOf s (afterPerform .serialize s) := by
  have hlo := afterPerform_value .serialize s .blkLo (epWord (ep0Of (s.value .ep)) (ep1Of (s.value .ep))) List.mem_cons_self
  have hhi := afterPerform_value .serialize s .blkHi (s.value .idxw) (List.mem_cons_of_mem _ List.mem_cons_self)
  rw [epWord_halves] at hlo
  exact ⟨hlo, hhi⟩

/-- The window shows a data register that holds a value as that value's four bytes, least significant first (R22, R53). -/
theorem windowByte_of_holds {s : State} {r : DataReg} (h : s.holds r = true) (base k : Nat) (hk : k < 4) :
    windowByte base s (base + (Reg.data r).offset.toNat + k) = some (BitVec.ofNat 8 (chan (s.value r) k)) := by
  obtain ⟨hinside, -⟩ := windowIsLittleEndian
  exact hinside base s (.data r) _ (if_pos h) k hk

/-- Settles O9: completion, frame and Unwritten are the perform step's; what is SERIALIZE's own is the two words it copies, which the
window shows as bytes. -/
theorem serializeRule : Obligations.SerializeRule := by
  refine operationRule_of_afterPerform (op := .serialize) (by decide) (by decide) fun s => ?_
  obtain ⟨hlo, hhi⟩ := blockOf_afterPerform_serialize s
  have hwritten := (afterPerform_completed .serialize s).written
  refine ⟨⟨hlo, hhi⟩, fun base j hj => ⟨?low, ?high⟩⟩
  case low => rw [← hlo]; exact windowByte_of_holds (hwritten .blkLo (by decide)) base j hj
  case high => rw [← hhi]; exact windowByte_of_holds (hwritten .blkHi (by decide)) base j hj

/-! ## The endpoints of a block -/

/-- The inset leaves the corners of a box in order (R113). -/
theorem channel_insetMin_le_insetMax (lo hi : Rgb) (k : Nat) (hk : k < 3) (h : (channel k lo).toNat ≤ (channel k hi).toNat) :
    channel k (insetMin lo hi) ≤ channel k (insetMax lo hi) := by
  have hdelta := channel_insetDelta lo hi k hk
  have hmin := channel_insetMin lo hi k hk h
  have hmax := channel_insetMax_add lo hi k hk
  rw [BitVec.le_def]
  omega

/-- The box of a block is not inverted: any pixel lies between its corners (R110). -/
theorem channel_rawMin_le_rawMax (s : State) (k : Nat) (hk : k < 3) :
    (channel k (rawMin s.pixels)).toNat ≤ (channel k (rawMax s.pixels)).toNat := by
  obtain ⟨hlow, -⟩ := rawMin_pixels s k hk
  obtain ⟨hhigh, -⟩ := rawMax_pixels s k hk
  exact (hlow 0).trans (hhigh 0)

/-- A block's endpoints are in order, since its corners are and packing is monotone (R142). -/
theorem blockEp1_le_blockEp0 (s : State) : blockEp1 s.pixels ≤ blockEp0 s.pixels := by
  have hcorners : ∀ k < 3, channel k (insetMin (rawMin s.pixels) (rawMax s.pixels)) ≤
      channel k (insetMax (rawMin s.pixels) (rawMax s.pixels)) :=
    fun k hk => channel_insetMin_le_insetMax _ _ k hk (channel_rawMin_le_rawMax s k hk)
  exact pack565_le_pack565 _ _ (hcorners 0 (by decide)) (hcorners 1 (by decide)) (hcorners 2 (by decide))

/-! ## The indices of a block whose endpoints are equal -/

/-- Between equal colours interpolation gives that colour (R126). -/
theorem interpolate_self (c : Rgb) : interpolate c c = c := by
  have hchannel : ∀ v : Byte, twoThirds v v = v := fun v => by
    rw [twoThirds, ← Nat.succ_mul, reciprocalMul3_three_mul]
  rw [interpolate, hchannel, hchannel, hchannel]

/-- Equal endpoints give a palette of one colour (R126). -/
theorem paletteOf_self (p : Endpoint) : paletteOf p p = ⟨unpack565 p, unpack565 p, unpack565 p, unpack565 p⟩ := by
  rw [paletteOf, interpolate_self]

/-- Under a palette of one colour all distances tie, and every pixel has index 0 (R134, R136). -/
theorem indexOf_oneColour (c p : Rgb) : indexOf ⟨c, c, c, c⟩ p = 0 :=
  network_eq_ofNat (codeOf_eq_zero_of_le le_rfl le_rfl)

/-- Codes that are all 0 sum to 0 (R73). -/
theorem indexSum_eq_zero (cs : List IndexCode) (h : ∀ c ∈ cs, c = 0) : indexSum cs = 0 := by
  induction cs with
  | nil => rfl
  | cons c cs ih =>
    obtain ⟨rfl, hcs⟩ := List.forall_mem_cons.mp h
    rw [indexSum, ih hcs]
    rfl

/-- Under a palette of one colour the index word is 0 (R73, R136). -/
theorem classifyWord_oneColour (c : Rgb) (ps : List Rgb) : classifyWord ⟨c, c, c, c⟩ ps = 0 := by
  have hcodes : ∀ code ∈ ps.map (indexOf ⟨c, c, c, c⟩), code = 0 :=
    List.forall_mem_map.mpr fun p _ => indexOf_oneColour c p
  rw [classifyWord, packIndices, indexSum_eq_zero _ hcodes]
  rfl

/-- A block whose endpoints are equal has index word 0 (R142). -/
theorem blockIndices_eq_zero (ps : List Rgb) (h : blockEp0 ps = blockEp1 ps) : blockIndices ps = 0 := by
  rw [blockIndices, blockPalette, h, paletteOf_self, classifyWord_oneColour]

/-! ## COMPRESS -/

/-- COMPRESS leaves the block's endpoints in EP, the max corner's first (R142, R150). -/
theorem afterPerform_compress_ep (s : State) :
    (afterPerform .compress s).value .ep = epWord (blockEp0 s.pixels) (blockEp1 s.pixels) :=
  afterPerform_value .compress s .ep (epWord (blockEp0 s.pixels) (blockEp1 s.pixels))
    (by simp [opResults, compressResults, compressWords])

/-- COMPRESS leaves the block's indices in IDXW (R150). -/
theorem afterPerform_compress_idxw (s : State) : (afterPerform .compress s).value .idxw = blockIndices s.pixels :=
  afterPerform_value .compress s .idxw (blockIndices s.pixels) (by simp [opResults, compressResults, compressWords])

/-- Settles O26: the pipeline keeps the corners in order down to the endpoints, and equal endpoints leave nothing to choose between. -/
theorem endpointsOrderedByCompress : Obligations.EndpointsOrderedByCompress := by
  intro cap s t hready hexec
  have hexec' : perform .compress (opResults .compress) s = .next t := (exec_instr .compress cap s).symm.trans hexec
  obtain rfl := perform_next_ready .compress s t hready hexec'
  rw [← ep0Of_toNat, ← ep1Of_toNat, afterPerform_compress_ep, ep0Of_epWord, ep1Of_epWord, afterPerform_compress_idxw]
  exact ⟨BitVec.le_def.mp (blockEp1_le_blockEp0 s), fun hequal => blockIndices_eq_zero _ (BitVec.eq_of_toNat_eq hequal)⟩

end Sys2Proof.Machine
end

section
/-! COMPRESS and the reserved codes (spec/46_compress_block.md): COMPRESS as the stages it is made of (R150, R151), blocks of one colour
(R153, R154), and the rejection of OP 6 and 7 (R152). -/

namespace Sys2Proof.Machine

open Sys2Proof.Claims

/-! ## COMPRESS and its stages -/

/-- COMPRESS leaves the block's palette in PAL0 to PAL3 (R150). -/
theorem afterPerform_compress_hostPalette (s : State) : (afterPerform .compress s).hostPalette = blockPalette s.pixels := by
  have hwords : paletteWords (blockPalette s.pixels) ⊆ opResults .compress s := fun w hw => by
    simp [opResults, compressResults, compressWords, hw]
  obtain ⟨h0, h1, h2, h3⟩ := afterPerform_palette .compress s _ hwords
  simp only [State.hostPalette, h0, h1, h2, h3, rgbOfWord_rgbWord]

/-- COMPRESS leaves the inset corners of the block in MINC and MAXC (R150). -/
theorem afterPerform_compress_corners (s : State) :
    rgbOfWord ((afterPerform .compress s).value .minc) = insetMin (rawMin s.pixels) (rawMax s.pixels) ∧
    rgbOfWord ((afterPerform .compress s).value .maxc) = insetMax (rawMin s.pixels) (rawMax s.pixels) := by
  have hvalue : ∀ r c, (r, rgbWord c) ∈ bboxWords s.pixels → rgbOfWord ((afterPerform .compress s).value r) = c := fun r c hr => by
    have hwritten : (r, rgbWord c) ∈ opResults .compress s := by simp [opResults, compressResults, compressWords, hr]
    rw [afterPerform_value .compress s r _ hwritten, DataReg.stored_rgbWord, rgbOfWord_rgbWord]
  exact ⟨hvalue .minc _ (by simp [bboxWords]), hvalue .maxc _ (by simp [bboxWords])⟩

/-- What COMPRESS writes is what the five stages would write on the state it leaves: that state is the pipeline's fixed point, although
no stage reads a register (R150, R151). -/
theorem compressResults_eq_stages (s : State) : compressResults s =
    bboxResults (afterPerform .compress s) ++ quantResults (afterPerform .compress s) ++ paletteResults (afterPerform .compress s) ++
      classifyResults (afterPerform .compress s) ++ serializeResults (afterPerform .compress s) := by
  obtain ⟨hminc, hmaxc⟩ := afterPerform_compress_corners s
  rw [bboxResults, quantResults, paletteResults, classifyResults, serializeResults, hminc, hmaxc, afterPerform_pixels,
    afterPerform_compress_hostPalette, afterPerform_compress_ep, afterPerform_compress_idxw, ep0Of_epWord, ep1Of_epWord]
  rfl

/-- On the state COMPRESS leaves, every operation would write only what COMPRESS has written (R151). -/
theorem opResults_afterPerform_compress_subset (op : Op) (s : State) :
    opResults op (afterPerform .compress s) ⊆ opResults .compress s := by
  intro w hw
  have hmem : w ∈ compressResults s ↔
      w ∈ bboxResults (afterPerform .compress s) ∨ w ∈ quantResults (afterPerform .compress s) ∨
      w ∈ paletteResults (afterPerform .compress s) ∨ w ∈ classifyResults (afterPerform .compress s) ∨
      w ∈ serializeResults (afterPerform .compress s) := by
    rw [compressResults_eq_stages]
    simp only [List.mem_append, or_assoc]
  cases op with
  | compress => rwa [opResults, compressResults, afterPerform_pixels] at hw
  | bbox => exact hmem.mpr (.inl hw)
  | quant => exact hmem.mpr (.inr (.inl hw))
  | palette => exact hmem.mpr (.inr (.inr (.inl hw)))
  | classify => exact hmem.mpr (.inr (.inr (.inr (.inl hw))))
  | serialize => exact hmem.mpr (.inr (.inr (.inr (.inr hw))))

/-- COMPRESS leaves the whole pipeline in its registers: each stage's rule holds of the state from the registers of that state (R150). -/
theorem pipelineOf_afterPerform (s : State) : PipelineOf s (afterPerform .compress s) := by
  have hstage := fun op => opResults_afterPerform_compress_subset op s
  refine ⟨boxOf_afterPerform .compress s ?box, ?endpoints, paletteFrom_afterPerform .compress s _ (hstage .palette),
    indicesOf_afterPerform .compress s _ (hstage .classify), ?blkLo, ?blkHi⟩
  case box => rw [← afterPerform_pixels .compress s]; exact hstage .bbox
  case endpoints =>
    rw [EndpointsOf, packed_eq_pack565, packed_eq_pack565]
    exact afterPerform_value .compress s .ep _ (hstage .quant (List.mem_singleton_self _))
  case blkLo =>
    refine (afterPerform_value .compress s .blkLo _ (hstage .serialize List.mem_cons_self)).trans ?_
    exact epWord_halves _
  case blkHi => exact afterPerform_value .compress s .blkHi _ (hstage .serialize (List.mem_cons_of_mem _ List.mem_cons_self))

/-- Settles O4: completion, frame and Unwritten are the perform step's; what is COMPRESS's own is the pipeline in its registers. -/
theorem compressRule : Obligations.CompressRule :=
  operationRule_of_afterPerform (op := .compress) (by decide) (by decide) pipelineOf_afterPerform

/-- A completion of COMPRESS holds its rule's pipeline (R92, R150). -/
theorem pipelineOf_of_exec {cap : Bool} {s t : State} (hready : s.Ready .compress) (hexec : exec (.compress cap) s = .next t) :
    PipelineOf s t := by
  have hexec' : perform .compress (opResults .compress) s = .next t := (exec_instr .compress cap s).symm.trans hexec
  obtain rfl := perform_next_ready .compress s t hready hexec'
  exact pipelineOf_afterPerform s

/-! ## The five commands in sequence -/

/-- The registers `rs` of `u` are as COMPRESS on `s` leaves them, stored bits and valid bit (R151). -/
def AsCompressed (s u : State) (rs : List DataReg) : Prop := ∀ r ∈ rs, u.cell r = (afterPerform .compress s).cell r

/-- The data registers are the pixels and the write set of COMPRESS (R21, R28). -/
theorem mem_pixRegs_or_mem_opWrites_compress (r : DataReg) : r ∈ pixRegs ∨ r ∈ opWrites .compress := by
  cases r <;> simp [pixRegs, palRegs, opWrites]

/-- COMPRESS leaves the pixels as they were (R28). -/
theorem asCompressed_pixRegs (s : State) : AsCompressed s s pixRegs := fun r hr =>
  ((afterPerform_frame .compress s).regs r ((by decide : ∀ r ∈ pixRegs, r ∉ opWrites .compress) r hr)).symm

/-- After COMPRESS every data register holds a value (R92). -/
theorem afterPerform_compress_holds {s : State} (hready : s.Ready .compress) (r : DataReg) :
    (afterPerform .compress s).holds r = true := by
  rcases mem_pixRegs_or_mem_opWrites_compress r with hpix | hwritten
  · exact (congrArg DataCell.valid (asCompressed_pixRegs s r hpix)).symm.trans (hready r hpix)
  · exact (afterPerform_completed .compress s).written r hwritten

/-- On the state COMPRESS leaves, an operation changes no data register (R151). -/
theorem afterPerform_afterPerform_compress_cell (op : Op) (s : State) {r : DataReg} (hr : r ∈ opWrites op) :
    (afterPerform op (afterPerform .compress s)).cell r = (afterPerform .compress s).cell r := by
  rw [← opResults_regs op (afterPerform .compress s)] at hr
  obtain ⟨⟨q, w⟩, hw, rfl⟩ := List.mem_map.mp hr
  rw [afterPerform_cell op _ q w hw, afterPerform_cell .compress s q w (opResults_afterPerform_compress_subset op s hw)]

/-- An operation whose operands are as COMPRESS leaves them completes, and adds its write set to the registers that are so (R151). -/
theorem exec_asCompressed {s u : State} {rs : List DataReg} (hready : s.Ready .compress) (h : AsCompressed s u rs) (op : Op)
    (cap : Bool) (hreads : opReads op ⊆ rs) :
    ∃ v, exec (op.instr cap) u = .next v ∧ AsCompressed s v (opWrites op ++ rs) := by
  have hoperand : ∀ r ∈ opReads op, u.value r = (afterPerform .compress s).value r := fun r hr => State.value_congr (h r (hreads hr))
  have hready' : u.Ready op := fun r hr =>
    (congrArg DataCell.valid (h r (hreads hr))).trans (afterPerform_compress_holds hready r)
  refine ⟨afterPerform op u, (exec_instr op cap u).trans (perform_ready op u hready'), fun r hr => ?_⟩
  by_cases hwritten : r ∈ opWrites op
  · have hresults : opResults op u = opResults op (afterPerform .compress s) :=
      opResults_congr op u _ (fun q hq => by rw [hoperand q hq]) fun q hq _ => hoperand q hq
    rw [afterPerform_congr op u _ hresults r hwritten, afterPerform_afterPerform_compress_cell op s hwritten]
  · rw [(afterPerform_frame op u).regs r hwritten]
    exact h r ((List.mem_append.mp hr).resolve_left hwritten)

/-- Settles O18: each command of the sequence reads only registers that are already as COMPRESS leaves them, and makes its write set so;
after the fifth no data register is left out. -/
theorem compressEqualsItsParts : Obligations.CompressEqualsItsParts := by
  intro cap c1 c2 c3 c4 c5 s hready
  obtain ⟨a, hbbox, ha⟩ := exec_asCompressed hready (asCompressed_pixRegs s) .bbox c1 (by decide)
  obtain ⟨b, hquant, hb⟩ := exec_asCompressed hready ha .quant c2 (by decide)
  obtain ⟨c, hpalette, hc⟩ := exec_asCompressed hready hb .palette c3 (by decide)
  obtain ⟨d, hclassify, hd⟩ := exec_asCompressed hready hc .classify c4 (by decide)
  obtain ⟨e, hserialize, he⟩ := exec_asCompressed hready hd .serialize c5 (by decide)
  have hcompress := (exec_instr .compress cap s).trans (perform_ready .compress s hready)
  refine ⟨_, a, b, c, d, e, hcompress, hbbox, hquant, hpalette, hclassify, hserialize, fun r => (he r ?_).symm⟩
  exact (by decide : ∀ q ∈ dataRegs, q ∈ opWrites .serialize ++ (opWrites .classify ++ (opWrites .palette ++ (opWrites .quant ++
    (opWrites .bbox ++ pixRegs))))) r (mem_dataRegs r)

/-! ## Blocks of one colour -/

/-- The zero word's bytes are 0 (R22). -/
theorem chan_zero (k : Nat) : chan 0 k = 0 := by simp [chan]

/-- The box of a block of one colour is that colour, and its inset moves nothing (R110, R112, R153). -/
theorem box_of_solid {s t : State} {c : Word} (h : BoxOf s t) (hreserved : chan c 3 = 0)
    (hsolid : ∀ i : Fin 16, ∀ k < 3, pixChan s i k = chan c k) :
    t.value .rawmin = c ∧ t.value .rawmax = c ∧ t.value .minc = c ∧ t.value .maxc = c ∧ t.value .delta = 0 := by
  obtain ⟨hchannels, hclear⟩ := h
  have hbox : ∀ k < 3, chan (t.value .rawmin) k = chan c k ∧ chan (t.value .rawmax) k = chan c k ∧
      chan (t.value .minc) k = chan c k ∧ chan (t.value .maxc) k = chan c k ∧ chan (t.value .delta) k = chan 0 k := by
    intro k hk
    obtain ⟨-, ⟨i, hi⟩, -, ⟨j, hj⟩, hdelta, hminc, hmaxc⟩ := hchannels k hk
    rw [hsolid i k hk] at hi
    rw [hsolid j k hk] at hj
    rw [chan_zero]
    omega
  have hword : ∀ r ∈ [DataReg.rawmin, .rawmax, .delta, .minc, .maxc], ∀ w, chan w 3 = 0 →
      (∀ k < 3, chan (t.value r) k = chan w k) → t.value r = w := by
    intro r hr w hw hlow
    refine eq_of_chan_eq _ _ fun k hk => ?_
    obtain hk | rfl : k < 3 ∨ k = 3 := by omega
    · exact hlow k hk
    · rw [hclear r hr, hw]
  simp only [imp_and, forall_and] at hbox
  obtain ⟨hrawmin, hrawmax, hminc, hmaxc, hdelta⟩ := hbox
  exact ⟨hword .rawmin (by decide) c hreserved hrawmin, hword .rawmax (by decide) c hreserved hrawmax,
    hword .minc (by decide) c hreserved hminc, hword .maxc (by decide) c hreserved hmaxc,
    hword .delta (by decide) 0 (chan_zero 3) hdelta⟩

/-- The two endpoints of an EP register that holds an endpoint word (R22). -/
theorem ep0_ep1_of_value {s : State} {p0 p1 : Endpoint} (h : s.value .ep = epWord p0 p1) : ep0 s = p0.toNat ∧ ep1 s = p1.toNat := by
  rw [← ep0Of_toNat, ← ep1Of_toNat, h, ep0Of_epWord, ep1Of_epWord]
  exact ⟨rfl, rfl⟩

/-- A palette between equal endpoints is four times their colour (R126). -/
theorem palette_of_equal_endpoints {s t : State} {p : Nat} (h : PaletteFrom s t) (h0 : ep0 s = p) (h1 : ep1 s = p) (j : Fin 4)
    (k : Nat) (hk : k < 3) : chan (t.value (.pal j)) k = expanded p k := by
  obtain ⟨hthird2, hthird3⟩ := thirds_of_paletteFrom h k hk
  obtain ⟨hchannels, -⟩ := h
  obtain ⟨hpal0, hpal1, -, -⟩ := hchannels k hk
  rw [h0] at hpal0
  rw [h1] at hpal1
  match j with
  | 0 => exact hpal0
  | 1 => exact hpal1
  | 2 => omega
  | 3 => omega

/-- Settles O27: the box of such a block is one point, so its endpoints are equal, which makes the palette one colour and every index 0. -/
theorem solidBlock : Obligations.SolidBlock := by
  intro cap s c hready hreserved hsolid
  have hexec := (exec_instr .compress cap s).trans (perform_ready .compress s hready)
  obtain ⟨hbox, hendpoints, hpalette, -, -⟩ := pipelineOf_afterPerform s
  obtain ⟨hrawmin, hrawmax, hminc, hmaxc, hdelta⟩ := box_of_solid hbox hreserved hsolid
  rw [EndpointsOf, hminc, hmaxc] at hendpoints
  obtain ⟨hep0, hep1⟩ := ep0_ep1_of_value hendpoints
  obtain ⟨-, hindices⟩ := endpointsOrderedByCompress cap s _ hready hexec
  exact ⟨_, hexec, hrawmin, hrawmax, hminc, hmaxc, hdelta, hendpoints, hindices (hep0.trans hep1.symm),
    fun j => ⟨palette_of_equal_endpoints hpalette hep0 hep1 j,
      State.chan_value_reserved _ ((mem_rgb888 (.pal j)).mpr rfl)⟩⟩

/-- Settles O28: black is the solid block of colour 0, whose endpoints and indices are 0, and BLK_LO and BLK_HI copy them. -/
theorem blackBlock : Obligations.BlackBlock := by
  intro cap s hready hblack
  obtain ⟨t, hexec, -, -, -, -, -, hep, hidxw, -⟩ :=
    solidBlock cap s 0 hready (chan_zero 3) fun i k hk => (hblack i k hk).trans (chan_zero k).symm
  obtain ⟨-, -, -, -, hlo, hhi⟩ := pipelineOf_of_exec hready hexec
  exact ⟨t, hexec, hlo.trans (hep.trans (by decide)), hhi.trans hidxw⟩

/-! ## The reserved codes -/

/-- Settles O10: OP 6 and 7 select no operation, so that their meaning, and their issue at an idle core, is the rejection. -/
theorem reservedOpsAreRejected : Obligations.ReservedOpsAreRejected := by
  refine ⟨fun cap s => ?meaning, fun w s _ hcode hidle => ?issue⟩
  case meaning =>
    rw [exec_of_op?_eq_none _ s rfl, exec_of_op?_eq_none _ s rfl, ← statusIllegal_eq]
    exact ⟨rfl, rfl⟩
  case issue =>
    obtain ⟨-, hillegal⟩ := issueOrReject w s hidle
    exact hillegal ((decodeOp_eq_none_iff w).mpr (.inr hcode))

end Sys2Proof.Machine
end

section
/-! Decoder and encoder are inverse on the legal and the reserved rows (spec/30_encoding.md R75 to R80). -/

namespace Sys2Proof.Machine

/-! ## From an instruction to its word and back -/

/-- The word of every instruction has RSVD = 0, and its CAP and OP are the instruction's (R75, R76). -/
theorem encode_fields (i : Instr) : rsvdField (encode i) = 0 ∧ capField (encode i) = i.cap ∧ opField (encode i) = opcodeOf i := by
  have hword : Laws.CommandWord.Statement i := by
    cases i with
    | compress cap => exact Laws.CommandWord.compress cap
    | bbox cap => exact Laws.CommandWord.bbox cap
    | quant cap => exact Laws.CommandWord.quant cap
    | palette cap => exact Laws.CommandWord.palette cap
    | classify cap => exact Laws.CommandWord.classify cap
    | serialize cap => exact Laws.CommandWord.serialize cap
    | reservedOp6 cap => exact Laws.CommandWord.reservedOp6 cap
    | reservedOp7 cap => exact Laws.CommandWord.reservedOp7 cap
  obtain ⟨hrsvd, hcap, hop, -⟩ := hword
  exact ⟨hrsvd, hcap, hop⟩

/-- An instruction is the one of its own OP code and capability bit (R76). -/
theorem instrOfFields_opcodeOf (i : Instr) : instrOfFields (opcodeOf i) i.cap = i := by
  cases i <;> rfl

/-- Decoding an instruction's word gives the instruction (R78). -/
theorem decode_encode (i : Instr) : decode (encode i) = .ok i := by
  obtain ⟨hrsvd, hcap, hop⟩ := encode_fields i
  rw [decode, if_neg (not_not.mpr hrsvd), hop, hcap, instrOfFields_opcodeOf]

/-! ## From a word to its instruction and back -/

/-- The instruction of an OP code and a capability bit has that code and that bit (R76). -/
theorem opcodeOf_cap_instrOfFields : ∀ (o : BitVec 3) (cap : Bool),
    opcodeOf (instrOfFields o cap) = o ∧ (instrOfFields o cap).cap = cap := by
  decide

/-- A word is its three fields side by side: they leave no bit out (R75). -/
theorem fields_append (w : Word) : rsvdField w ++ BitVec.ofBool (capField w) ++ opField w = w := by
  refine BitVec.eq_of_getLsbD_eq (x := rsvdField w ++ BitVec.ofBool (capField w) ++ opField w) fun i hi => ?_
  simp only [BitVec.getLsbD_append, rsvdField, opField, capField, BitVec.getLsbD_extractLsb', BitVec.getLsbD_ofBool]
  by_cases hop : i < 3
  · simp [hop]
  · by_cases hcap : i = 3
    · simp [hcap]
    · simp [hop, show ¬ i - 3 < 1 by omega, show i - 3 - 1 < 28 by omega, show 4 + (i - 3 - 1) = i by omega]

/-- A word that decodes has RSVD = 0 and gives the instruction of its other two fields (R78). -/
theorem decode_eq_ok_iff (w : Word) (i : Instr) :
    decode w = .ok i ↔ rsvdField w = 0 ∧ instrOfFields (opField w) (capField w) = i := by
  unfold decode
  by_cases hrsvd : rsvdField w = 0
  · simp only [hrsvd, ne_eq, not_true_eq_false, if_false, Except.ok.injEq, true_and]
  · simp only [if_pos hrsvd, reduceCtorEq, hrsvd, false_and]

/-- A word that decodes to an instruction is the instruction's word (R78). -/
theorem encode_of_decode (w : Word) (i : Instr) (h : decode w = .ok i) : encode i = w := by
  obtain ⟨hrsvd, rfl⟩ := (decode_eq_ok_iff w i).mp h
  obtain ⟨hop, hcap⟩ := opcodeOf_cap_instrOfFields (opField w) (capField w)
  calc encode _ = 0#28 ++ BitVec.ofBool (capField w) ++ opField w := by rw [encode, hop, hcap]
    _ = rsvdField w ++ BitVec.ofBool (capField w) ++ opField w := by rw [hrsvd]; rfl
    _ = w := fields_append w

/-- Settles O2: an instruction is its OP code and capability bit, and a legal word is these two fields below a zero RSVD. -/
theorem decodeAndEncodeAgree : Obligations.DecodeAndEncodeAgree := ⟨decode_encode, encode_of_decode⟩

end Sys2Proof.Machine
end

section
/-! What a bus access meets that no register answers, or that BUSY bars (spec/20_memory.md R52, spec/60_exceptions.md R185, R186). -/

namespace Sys2Proof.Machine

open Sys2Proof.Claims

/-- A read that fails the checks is the fault they name (R52). -/
theorem busRead_of_checkAccess_error {off : BitVec 8} {size : Nat} {s : State} {f : Fault}
    (h : checkAccess .read off size s = .error f) : busRead off size s = .error (.inr f) := by
  simp [busRead, h]

/-- A write that fails the checks is the fault they name (R52). -/
theorem busWrite_of_checkAccess_error {off : BitVec 8} {size : Nat} {s : State} {f : Fault}
    (h : checkAccess .write off size s = .error f) (v : Word) : busWrite off size v s = .fault f := by
  simp [busWrite, h]

/-- Settles O30: the size and the offset are checked before anything else, for reads and writes alike. -/
theorem badAccessIsBusError : Obligations.BadAccessIsBusError := fun off size v s hbad =>
  ⟨busRead_of_checkAccess_error (checkAccess_busError .read off size s hbad),
    busWrite_of_checkAccess_error (checkAccess_busError .write off size s hbad) v⟩

/-- Settles O31: after the checks of size and offset BUSY bars every access but the read of STATUS. -/
theorem accessWhileBusy : Obligations.AccessWhileBusy := by
  intro off v s hmapped hbusy
  refine ⟨busWrite_of_checkAccess_error (checkAccess_hostProtocol .write off s hmapped hbusy (by simp)) v, fun hother => ?_, ?_⟩
  · exact busRead_of_checkAccess_error (checkAccess_hostProtocol .read off s hmapped hbusy fun ⟨_, hstatus⟩ => hother hstatus)
  · rintro rfl
    exact busRead_status s

end Sys2Proof.Machine
end

section
/-! The state after reset, the reset event, and the final state of a run (spec/10_state.md R35, spec/70_reset_and_hazards.md R200, R207). -/

namespace Sys2Proof.Machine

/-! ## Power-on -/

/-- Settles O37: the fields are R35's table by definition, and every valid bit is clear. -/
theorem resetState : Obligations.ResetState := ⟨rfl, rfl, rfl, rfl, reset_holds⟩

/-- After power-on every data register stores its unspecified value, with its valid bit clear (R35; log entry 1). -/
theorem reset_cell (r : DataReg) : State.reset.cell r = { val := 0, valid := false } :=
  State.reset.resetCore_cell r

/-- Settles O39: STATUS and PENDING are clear, and registers, memory and temporaries are all zeros. -/
theorem resetMeetsInvariant : Obligations.ResetMeetsInvariant where
  statusLegal := .inl rfl
  busyIffPending := ⟨fun hbusy => absurd hbusy (by decide), fun hpending => absurd rfl hpending⟩
  pendingIsCmd := fun _ hpending => nomatch hpending
  errorNamesCmd := fun herror => absurd herror (by decide)
  reservedClear := fun r _ => by rw [reset_cell r]; rfl
  deltaAgrees := by simp only [State.deltaAgrees, reset_cell]; decide
  memWf := rfl
  tempsWf := rfl

/-! ## The reset event -/

/-- A reset event that is due is the step, with its turn taken, while no fault mark stands (R200; log entries 4 and 11). -/
theorem step_reset (s : State) (rest : List Agent) (hmark : s.firstFault = none) (hs : s.schedule = .reset :: rest) :
    step s = .next (s.setSchedule rest).resetCore := by
  rw [step, machineStep_noFault _ s hmark]
  simp only [takeTurn, hs, agentTurn, absorbFault]

/-- Settles O38: the step is the reset event, which replaces the core's fields and no other. -/
theorem resetEvent : Obligations.ResetEvent := by
  intro s rest hmark hs
  refine ⟨_, step_reset s rest hmark hs, rfl, rfl, rfl, fun r => ⟨?_, ?_⟩, ⟨rfl, rfl, rfl, rfl, rfl, rfl, rfl⟩⟩
  · rw [State.holds, State.resetCore_cell]
  · rw [State.resetCore_cell, reset_cell]

/-! ## The end of a run -/

/-- Settles O44: by default it is the host's turn, and its program is at its end. -/
theorem finalStateIsIdle : Obligations.FinalStateIsIdle := by
  rintro s ⟨hprog, hpending, hmark⟩ hschedule
  rw [step, machineStep_noFault _ s hmark]
  simp only [takeTurn, hschedule, defaultAgent, hpending, agentTurn, hostTurn, hprog, absorbFault]

end Sys2Proof.Machine
end

section
/-! A poll on a busy core (spec/20_memory.md R61, spec/70_reset_and_hazards.md R202): it reads BUSY = 1 on every turn before the perform step,
and DONE after it. -/

namespace Sys2Proof.Machine

open Sys2Proof.Claims

/-- How the poll of a pending `op` ends: from `s`, with STATUS read into temporary `x`, the host goes on to `rest` in `t`, and the core
is as the perform step leaves it. -/
structure PollEnded (op : Op) (x : Nat) (rest : List HostOp) (s t : State) : Prop where
  pending : t.pending = none
  status : t.status = 0x00000002
  firstFault : t.firstFault = none
  schedule : t.schedule = []
  prog : t.prog = rest
  temp : t.temp x = 0x00000002
  mem : t.mem = s.mem
  cmd : t.cmd = s.cmd
  cell : ∀ r : DataReg, t.cell r = (afterPerform op s).cell r

/-- With the core next, a poll ends in two steps: the perform step and one read of STATUS (R92, R202). -/
theorem run_poll_performed (x : Nat) (op : Op) (s : State) (rest : List HostOp) (hmark : s.firstFault = none)
    (hpending : s.pending = some op) (hready : s.Ready op) (htemps : sparseWf s.temps = true) (hschedule : s.schedule = [])
    (hprog : s.prog = .poll x :: rest) : ∃ t : State, core.run 2 s = .next t ∧ PollEnded op x rest s t := by
  let performed := afterPerform op s
  have hframe : State.PerformFrame op s performed := afterPerform_frame op s
  have hout := hframe.outside
  have hdone : State.Completed op performed := afterPerform_completed op s
  have hperform : step s = .next performed := step_core s op hmark hpending hschedule hready
  have hpoll : step performed = .next ((performed.setProg rest).setTemp x 2) :=
    step_host performed (.poll x) rest _ (hout.firstFault.trans hmark) (hout.prog.trans hprog)
      ⟨hout.schedule.trans hschedule, hdone.pending⟩ (pollOnce_done x _ hdone.status)
  refine ⟨(performed.setProg rest).setTemp x 2, ?_, ⟨hdone.pending, hdone.status, hout.firstFault.trans hmark, hout.schedule.trans hschedule, rfl,
    State.setTemp_temp_self (performed.setProg rest) x 2 (hout.temps ▸ htemps), hout.mem, hframe.cmd, fun r => rfl⟩⟩
  rw [run_step _ s _ hperform, run_step _ performed _ hpoll]
  rfl

/-- The state after a poll has read BUSY = 1: the turn is taken and the poll is next again (R81). -/
def afterBusyPoll (x : Nat) (sched : List Agent) (s : State) : State := (s.setSchedule sched).setTemp x 1

/-- A poll on the host's turn, while the core is busy, is next again (R81, R202). -/
theorem step_poll_busy (x : Nat) (s : State) (rest : List HostOp) (sched : List Agent) (hmark : s.firstFault = none)
    (hstatus : s.status = 0x00000001) (hschedule : s.schedule = .host :: sched) (hprog : s.prog = .poll x :: rest) :
    step s = .next (afterBusyPoll x sched s) := by
  rw [step_host_turn s (.poll x) rest sched hmark hprog (.inl hschedule)]
  have hpoll : hostOp Config.hostAddrBits (.poll x) ((s.setSchedule sched).setProg rest) = _ := pollOnce_busy x _ hstatus
  rw [hpoll, absorbFault, afterBusyPoll]
  simp only [State.pushProg, State.setTemp, State.setProg, State.setSchedule, List.cons_append, List.nil_append, ← hprog]

/-- The end of a poll that has read BUSY = 1 is the end of the poll before that read (R65). -/
theorem PollEnded.of_afterBusyPoll {op : Op} {x : Nat} {rest : List HostOp} {sched : List Agent} {s t : State}
    (h : PollEnded op x rest (afterBusyPoll x sched s) t) : PollEnded op x rest s t :=
  { h with cell := fun r => (h.cell r).trans (afterPerform_cell_congr op s (afterBusyPoll x sched s) rfl r) }

/-- A poll of a pending command that has its operands ends, after any number of the host's turns: by induction on them (R61, R202). -/
theorem run_poll (n x : Nat) (op : Op) (s : State) (rest : List HostOp) (hmark : s.firstFault = none) (hpending : s.pending = some op)
    (hstatus : s.status = 0x00000001) (hready : s.Ready op) (htemps : sparseWf s.temps = true)
    (hschedule : s.schedule = List.replicate n .host) (hprog : s.prog = .poll x :: rest) :
    ∃ t : State, core.run (n + 2) s = .next t ∧ PollEnded op x rest s t := by
  induction n generalizing s with
  | zero => exact run_poll_performed x op s rest hmark hpending hready htemps hschedule hprog
  | succ n ih =>
    have hstep := step_poll_busy x s rest _ hmark hstatus hschedule hprog
    obtain ⟨t, hrun, hended⟩ := ih (afterBusyPoll x (List.replicate n .host) s) hmark hpending hstatus hready
      (sparseSet_wf _ x 1 htemps) rfl hprog
    exact ⟨t, (run_step (n + 2) s _ hstep).trans hrun, hended.of_afterBusyPoll⟩

/-- Settles O43: the poll ends as `run_poll` has it, and the command's meaning on the first state is its perform step. -/
theorem pollEnds : Obligations.PollEnds := by
  intro n x op s rest hmark hpending hstatus hready htemps hschedule hprog
  obtain ⟨t, hrun, h⟩ := run_poll n x op s rest hmark hpending hstatus hready htemps hschedule hprog
  have hexec := (exec_instr op (capField s.cmd) s).trans (perform_ready op s hready)
  exact ⟨t, _, hrun, hexec, h.pending, h.status, h.firstFault, h.schedule, h.prog, h.temp, h.mem, h.cmd, h.cell⟩

end Sys2Proof.Machine
end

section
/-! The checks of a call (spec/47_host_image.md R161, R162, R170), each by what it says of the call's width, height and buffers. -/

namespace Sys2Proof.Machine

/-- A call has no width exactly when its width word is 0. -/
theorem Call.w_eq_zero (c : Call) : c.w = 0 ↔ c.width = 0 := BitVec.toNat_inj (y := 0)

/-- A call has no height exactly when its height word is 0. -/
theorem Call.h_eq_zero (c : Call) : c.h = 0 ↔ c.height = 0 := BitVec.toNat_inj (y := 0)

/-- A zero side, or one that is no multiple of 4, is InvalidDimensions, whatever the buffers (R161). -/
theorem callError_of_badDimensions (c : Call)
    (h : c.width = 0 ∨ c.height = 0 ∨ c.width.toNat % 4 ≠ 0 ∨ c.height.toNat % 4 ≠ 0) :
    callError c = some (.invalidDimensions c.w c.h) := by
  rw [← c.w_eq_zero, ← c.h_eq_zero] at h
  exact if_pos h

/-- With both sides nonzero multiples of 4 the buffer's length decides (R162). -/
theorem callError_of_goodDimensions (c : Call) (hw : c.width ≠ 0) (hh : c.height ≠ 0) (hw4 : c.width.toNat % 4 = 0)
    (hh4 : c.height.toNat % 4 = 0) : callError c = if c.len < c.need then some (.bufferTooShort c.len c.need) else none := by
  refine if_neg ?_
  rw [c.w_eq_zero, c.h_eq_zero]
  rintro (hw0 | hh0 | hwrem | hhrem)
  exacts [hw hw0, hh hh0, hwrem hw4, hhrem hh4]

/-- A call with an error returns it and changes nothing else (R161, R162, R169). -/
theorem hostOp_compress_error (bits : Nat) (c : Call) (s : State) (e : CallResult) (h : callError c = some e) :
    hostOp bits (.compress c) s = .next (s.setResult (some e)) := by
  simp only [hostOp, startCall, h]

/-- Settles O46: the first check that fails names the call's error, and a call with an error sets the result only. -/
theorem callChecks : Obligations.CallChecks := by
  intro bits c s
  refine ⟨fun hbad => hostOp_compress_error bits c s _ (callError_of_badDimensions c hbad), fun hw hh hw4 hh4 hshort => ?_⟩
  refine hostOp_compress_error bits c s _ ?_
  rw [callError_of_goodDimensions c hw hh hw4 hh4]
  exact if_pos hshort

/-- A call without an error starts its walk at block 0 if both buffers fit the address width, and is refused if one does not (R170). -/
theorem hostOp_compress_checked (bits : Nat) (c : Call) (s : State) (h : callError c = none) :
    hostOp bits (.compress c) s =
      if c.fits bits then .next ((s.setResult none).pushProg [.walk c 0])
      else .refused (.hostAddressWidth (max (c.src + c.need) (c.dst + c.outLen))) := by
  simp only [hostOp, startCall, h]

/-- Both buffers fit exactly when both end addresses are below 2 to the address width (R170; log entry 9). -/
theorem Call.fits_iff (bits : Nat) (c : Call) : c.fits bits = true ↔ c.src + c.need < 2 ^ bits ∧ c.dst + c.outLen < 2 ^ bits := by
  rw [Call.fits, Bool.and_eq_true, decide_eq_true_iff, decide_eq_true_iff]

/-- Settles O47: the greater of the two end addresses does not fit when one of them does not. -/
theorem callFitsAddressWidth : Obligations.CallFitsAddressWidth := by
  intro bits c s hw hh hw4 hh4 hlen
  have hchecked : callError c = none := by
    rw [callError_of_goodDimensions c hw hh hw4 hh4]
    exact if_neg (not_lt.mpr hlen)
  rw [hostOp_compress_checked bits c s hchecked]
  refine ⟨fun hfits => if_pos ((c.fits_iff bits).mpr hfits), fun htoo => ⟨max (c.src + c.need) (c.dst + c.outLen), ?_, ?_⟩⟩
  · change ¬ (c.src + c.need < 2 ^ bits ∧ c.dst + c.outLen < 2 ^ bits) at htoo
    omega
  · exact if_neg fun hfits => htoo ((c.fits_iff bits).mp hfits)

end Sys2Proof.Machine
end

section
/-! The walk of a call (spec/47_host_image.md R163, R166): the order of its blocks, one block of it, and all of it. -/

namespace Sys2Proof.Claims

open Sys2Proof.Machine

/-- Setting the last call's result keeps a core idle. -/
theorem Idle.setResult {s : State} (h : Idle s) (r : Option CallResult) : Idle (s.setResult r) :=
  ⟨h.fault, h.pending, h.notBusy, h.schedule, h.memWf, h.tempsWf⟩

end Sys2Proof.Claims

namespace Sys2Proof.Machine

open Sys2Proof.Claims

/-! ## The order -/

/-- Counting `rows` rows of `cols` numbers by one counter, and reading column and row off it, is the nested count. -/
theorem map_range_mul_mod_div {α : Type} (cols rows : Nat) (f : Nat → Nat → α) :
    (List.range (cols * rows)).map (fun k => f (k % cols) (k / cols)) =
      (List.range rows).flatMap fun j => (List.range cols).map fun i => f i j := by
  induction rows with
  | zero => rfl
  | succ rows ih =>
    have hrow : ∀ i ∈ List.range cols, f ((cols * rows + i) % cols) ((cols * rows + i) / cols) = f i rows := by
      intro i hi
      have hlt : i < cols := List.mem_range.mp hi
      rw [Nat.mul_add_mod, Nat.mod_eq_of_lt hlt, Nat.mul_add_div (Nat.zero_lt_of_lt hlt), Nat.div_eq_of_lt hlt, Nat.add_zero]
    rw [Nat.mul_succ, List.range_add, List.map_append, ih, List.range_succ, List.flatMap_append, List.flatMap_singleton,
      List.map_map, List.append_cancel_left_eq]
    exact List.map_congr_left hrow

/-- Settles O48: a block's column and row are read off its number as remainder and quotient by the width in blocks. -/
theorem walkOrder : Obligations.WalkOrder := fun c =>
  map_range_mul_mod_div (c.w / 4) (c.h / 4) fun i j => (4 * i, 4 * j)

/-! ## One block -/

/-- While blocks are left a walk is `compress_one` of the next block, with the rest of the walk after it (R163, R165). -/
theorem hostOp_walk_block (bits : Nat) (c : Call) (k : Nat) (s : State) (hk : k < c.blocks) :
    hostOp bits (.walk c k) s = compressOne c (c.bx k) (c.byRow k) [.walk c (k + 1)] s :=
  if_pos hk

/-- Past the last block the call returns its image (R166). -/
theorem hostOp_walk_end (bits : Nat) (c : Call) (s : State) :
    hostOp bits (.walk c c.blocks) s = .next (s.setResult (some (.image c.dst c.outLen))) :=
  if_neg (Nat.lt_irrefl _)

/-- Settles O51: the walk's step is `compress_one` of block `k` with the walk at the next block after it. -/
theorem oneBlockOfTheWalk : Obligations.OneBlockOfTheWalk := fun c k s rest hi hc hk hp =>
  run_block c k (.walk c k) [.walk c (k + 1)] rest s hi hc hk hp fun u => hostOp_walk_block _ c k u hk

/-! ## The whole walk -/

/-- The walk's last step, from an idle core: the call returns its image, and nothing else changes (R166). -/
theorem step_walk_end (c : Call) (s : State) (rest : List HostOp) (hi : Idle s) (hp : s.prog = .walk c c.blocks :: rest) :
    step s = .next ((s.setProg rest).setResult (some (.image c.dst c.outLen))) :=
  step_idle hi hp (hostOp_walk_end _ c _)

/-- The walk from block `k`, with `n` blocks left: they are stored, compressed from the pixels as they were, the output of the blocks before
`k` is left as it was, and the call returns its image. By induction on the blocks left: storing a block leaves the pixels, and the blocks
after it leave its bytes (R163, R165, R166; log entry 4). -/
theorem run_walk (c : Call) (n k : Nat) (s : State) (rest : List HostOp) (hi : Idle s) (hc : callError c = none)
    (hn : k + n = c.blocks) (hp : s.prog = .walk c k :: rest) (hapart : c.src + c.need ≤ c.dst ∨ c.dst + c.outLen ≤ c.src) :
    ∃ t : State, core.run (24 * n + 1) s = .next t ∧ Idle t ∧ t.prog = rest ∧ t.result = some (.image c.dst c.outLen) ∧
      (∀ j, k ≤ j → j < c.blocks → BlockStored c s.mem j t) ∧
      ∀ a, (a < c.dst + 8 * k ∨ c.dst + c.outLen ≤ a) → readByte t.mem a = readByte s.mem a := by
  induction n generalizing k s with
  | zero =>
    obtain rfl : k = c.blocks := hn
    exact ⟨_, run_step 0 s _ (step_walk_end c s rest hi hp), (hi.setProg rest).setResult _, rfl, rfl, fun j hkj hj => by omega, fun a _ => rfl⟩
  | succ n ih =>
    have hk : k < c.blocks := by omega
    obtain ⟨u, hurun, huidle, huprog, -, hublock, huframe⟩ := oneBlockOfTheWalk c k s rest hi hc hk hp
    obtain ⟨t, htrun, htidle, htprog, htresult, htblocks, htframe⟩ := ih (k + 1) u huidle (by omega) huprog
    have hpixels : ∀ a, c.src ≤ a → a < c.src + c.need → readByte s.mem a = readByte u.mem a :=
      fun a hlo hhi => (huframe a (pixel_outside_outputBlock c k a hk hapart hlo hhi)).symm
    refine ⟨t, ?_, htidle, htprog, htresult, fun j hkj hj => ?_, fun a ha => ?_⟩
    · rw [show 24 * (n + 1) + 1 = 24 + (24 * n + 1) by omega]
      exact run_trans hurun htrun
    · rcases Nat.eq_or_lt_of_le hkj with rfl | hlater
      · exact blockStored_of_same_output hublock fun a _ hhi => htframe a (.inl (by omega))
      · exact blockStored_of_same_pixels (htblocks j hlater hj) hc hj hpixels
    · have hlen := c.outLen_eq
      rw [htframe a (by omega), huframe a (by omega)]

/-- Settles O53: the walk from block 0 is the walk with all blocks left. -/
theorem walkCompressesTheImage : Obligations.WalkCompressesTheImage := by
  intro c s rest hi hc hp hapart
  obtain ⟨t, hrun, hidle, hprog, hresult, hblocks, hframe⟩ := run_walk c c.blocks 0 s rest hi hc (Nat.zero_add _) hp hapart
  exact ⟨t, hrun, hidle, hprog, hresult, fun k hk => hblocks k (Nat.zero_le k) hk, hframe⟩

end Sys2Proof.Machine
end

section
/-! Extraction for any coordinates (spec/47_host_image.md R164, R169): all 16 pixels inside the buffer, or the first one past its end. -/

namespace Sys2Proof.Machine

open Sys2Proof.Claims

/-- Pixel `i` of a block stands at its offset from the buffer's base (R55, R164). -/
theorem Call.blockAddrs_getElem (c : Call) (bx byRow i : Nat) (hi : i < (c.blockAddrs bx byRow).length) :
    (c.blockAddrs bx byRow)[i] = c.src + pixelOffset c bx byRow i := by
  simp only [Call.blockAddrs, List.getElem_map, List.getElem_range]
  rfl

/-- A block has 16 pixel addresses (R164). -/
theorem Call.blockAddrs_length (c : Call) (bx byRow : Nat) : (c.blockAddrs bx byRow).length = 16 := by
  simp [Call.blockAddrs]

/-- The first `i` addresses of a block lie inside the buffer when their offsets do (R164). -/
theorem Call.blockAddrs_take_inside (c : Call) (bx byRow i : Nat) (h : ∀ j < i, pixelOffset c bx byRow j + 4 ≤ c.len) :
    ∀ a ∈ (c.blockAddrs bx byRow).take i, c.src ≤ a ∧ a + 4 ≤ c.src + c.len := by
  intro a ha
  obtain ⟨j, hj, rfl⟩ := List.mem_take_iff_getElem.mp ha
  have hinside := h j (by omega)
  rw [c.blockAddrs_getElem]
  omega

/-! ## Inside the buffer -/

/-- A block whose 16 pixels end inside the buffer is extracted whole (R164). -/
theorem extractBlock_inside (c : Call) (m : Memory) (bx byRow : Nat) (h : ∀ i < 16, pixelOffset c bx byRow i + 4 ≤ c.len) :
    extractBlock c m bx byRow = .ok (c.blockPixelWords m bx byRow) := by
  have hinside := c.blockAddrs_take_inside bx byRow 16 h
  rw [List.take_of_length_le (c.blockAddrs_length bx byRow).le] at hinside
  exact readPixels_ok c m _ hinside

/-- The four bytes at an address are those of the word read there (R9). -/
theorem wordAt_readWord (m : Memory) (a : Nat) : WordAt m a (readWord m a) := fun k hk => by
  rw [← byteOf_toNat, byteOf_readWord m a k hk]

/-- Settles O49: an extraction inside the buffer is the list of the words at the pixels' offsets, and a checked call's pixels lie in the
first `width*height*4` bytes of its buffer. -/
theorem extractionReadsTheBlock : Obligations.ExtractionReadsTheBlock := by
  refine ⟨fun c m bx byRow hinside => ?_, fun c k hc hk i hi => ?_⟩
  · have hlen := c.blockPixelWords_length m bx byRow
    refine ⟨_, extractBlock_inside c m bx byRow hinside, hlen, fun i hi => ?_⟩
    refine ⟨_, List.getElem?_eq_getElem (hlen ▸ hi), ?_⟩
    rw [c.blockPixelWords_getElem]
    exact wordAt_readWord m _
  · obtain ⟨-, -, -, -, hneed⟩ := callError_none c hc
    exact (pixelOffset_bound c k i hc hk hi).trans hneed

/-! ## Past the end -/

/-- A block whose first pixel past the buffer's end is number `i` is OutOfBounds at that pixel's address (R164). -/
theorem extractBlock_past (c : Call) (m : Memory) (bx byRow i : Nat) (hi : i < 16)
    (hbefore : ∀ j < i, pixelOffset c bx byRow j + 4 ≤ c.len) (hpast : c.len < pixelOffset c bx byRow i + 4) :
    extractBlock c m bx byRow = .error (c.src + pixelOffset c bx byRow i) := by
  have hlt : i < (c.blockAddrs bx byRow).length := (c.blockAddrs_length bx byRow).symm ▸ hi
  rw [extractBlock, ← List.take_append_drop i (c.blockAddrs bx byRow), List.drop_eq_getElem_cons hlt, c.blockAddrs_getElem]
  exact readPixels_past c m _ _ _ (c.blockAddrs_take_inside bx byRow i hbefore) (by omega)

/-- `compress_one` of a block that cannot be extracted ends with OutOfBounds and changes nothing else (R164, R169; log entry 24). -/
theorem compressOne_of_extractBlock_error (c : Call) (bx byRow : Nat) (more : List HostOp) (s : State) (a : Nat)
    (h : extractBlock c s.mem bx byRow = .error a) : compressOne c bx byRow more s = .next (s.setResult (some (.extractPastEnd a))) := by
  simp [compressOne, h]

/-- Settles O56: a block on its own and a walk at that block are both `compress_one`, which the extraction's error ends. -/
theorem extractionPastTheEnd : Obligations.ExtractionPastTheEnd := by
  intro bits c s bx byRow i hi hbefore hpast
  have hextract := extractBlock_past c s.mem bx byRow i hi hbefore hpast
  refine ⟨hextract, compressOne_of_extractBlock_error c bx byRow [] s _ hextract, ?_⟩
  rintro k hk rfl rfl
  rw [hostOp_walk_block bits c k s hk]
  exact compressOne_of_extractBlock_error c _ _ _ s _ hextract

end Sys2Proof.Machine
end
